-- ==== Sys2Proof/Word.lean ====
section
/-! DEFINITION. The word types of byte_substitution_rotor (00_scope.md rules R10 and R13). -/

namespace Sys2Proof

/-- A command word and a register read: 32 bits (00_scope.md R10). -/
abbrev Word := BitVec 32

/-- A data, key or permutation byte: 8 bits, unsigned, 0..255 (00_scope.md R10). BitVec arithmetic on it is the
arithmetic mod 256 of R13. -/
abbrev Byte := BitVec 8

end Sys2Proof
end

