-- ==== Sys2Proof/Config.lean ====
section
/-! DEFINITION. What is fixed for the life of an instance: the two parameters of 00_scope.md rule R7. The memory
contents drawn at each reset (R8) are an input of the step (State's `draw`); LAT (R9) is not represented, since a model
represents no time (70_reset_and_hazards.md R343). -/

namespace Sys2Proof

/-- The parameters of one instance of the block (00_scope.md R7). -/
structure Config where
  /-- `NR`: the number of rotor slots. -/
  nr : Nat
  /-- `BUFSZ`: the size of the working buffer in bytes. -/
  bufSize : Nat
  deriving DecidableEq, Repr

/-- The legal ranges of R7: `NR` is 1 to 256 and `BUFSZ` is 1 to 65536. -/
abbrev Config.Legal (c : Config) : Prop :=
  1 ≤ c.nr ∧ c.nr ≤ 256 ∧ 1 ≤ c.bufSize ∧ c.bufSize ≤ 65536

/-- The reference configuration of R7. -/
def Config.reference : Config := ⟨8, 65536⟩

end Sys2Proof
end

