-- ==== Sys2Proof/Syntax.lean ====
section
/-! DEFINITION. The command set of 30_encoding.md as syntax: one constructor per row of the opcode map (R109), the
reasons a word is no command (R110, R111), and the assembler's source lines (R114, R115). -/

namespace Sys2Proof

/-- A command, one constructor per row of spec/opcode_table.json (30_encoding.md R109). Each operand has exactly the
width of its field (R102 to R105), so every term is the meaning of exactly one word. A `dir` of 2 or 3 is a legal
operand (R108). -/
inductive Instr where
  /-- NOP, format FN (43_host_control.md R250). -/
  | nop
  /-- KEYWR idx, byte, format FKB (40_key_schedule.md R140). -/
  | keywr (idx : BitVec 8) (byte : BitVec 8)
  /-- KEYLEN n, format FI9 (40_key_schedule.md R141). -/
  | keylen (v9 : BitVec 9)
  /-- KEYRD idx, format FI8 (40_key_schedule.md R142). -/
  | keyrd (v8 : BitVec 8)
  /-- PERLO v, format FI16 (40_key_schedule.md R143). -/
  | perlo (v16 : BitVec 16)
  /-- PERHI v, format FI16 (40_key_schedule.md R144). -/
  | perhi (v16 : BitVec 16)
  /-- STEP v, format FI8 (40_key_schedule.md R145). -/
  | step (v8 : BitVec 8)
  /-- BUILD slot, dir, format FSD (40_key_schedule.md R150). -/
  | build (slot : BitVec 8) (dir : BitVec 2)
  /-- CHLEN n, format FI9 (42_chain.md R210). -/
  | chlen (v9 : BitVec 9)
  /-- BUFLEN n, format FI17 (42_chain.md R211). -/
  | buflen (v17 : BitVec 17)
  /-- BUFWR addr, byte, format FAB (42_chain.md R212). -/
  | bufwr (addr : BitVec 16) (byte : BitVec 8)
  /-- BUFRD addr, format FA (42_chain.md R213). -/
  | bufrd (addr : BitVec 16)
  /-- RUN dir, format FD (42_chain.md R214). -/
  | run (dir : BitVec 2)
  /-- PERMRD slot, idx, format FSI (43_host_control.md R251). -/
  | permrd (slot : BitVec 8) (i8 : BitVec 8)
  /-- REGRD slot, sel, format FSI (43_host_control.md R252). -/
  | regrd (slot : BitVec 8) (i8 : BitVec 8)
  /-- RESET, format FN (43_host_control.md R254). -/
  | reset
  deriving DecidableEq, Repr

/-- Why a word matches no row of the opcode map (30_encoding.md R110, R111). Either way it raises IllegalCommand. -/
inductive DecodeError where
  /-- Opcode 0x10..0xFF. -/
  | reservedOpcode
  /-- Opcode 0x00..0x0F with a 1 in a reserved bit. -/
  | reservedBit
  deriving DecidableEq, Repr

/-- One row of the opcode map of 30_encoding.md R109: a word `w` is the command when `(w & mask) == match`. -/
structure OpcodeRow where
  /-- The row's mnemonic, as spec/opcode_table.json has it. -/
  mnemonic : String
  /-- The row's `match`. -/
  pattern : Word
  /-- The row's `mask`. -/
  mask : Word
  deriving DecidableEq, Repr

/-- A line of the assembler syntax of 30_encoding.md R114, its operands the numbers as written, and the
pseudo-instructions of R115. `ENC` and `DEC` are the numbers 0 and 1. -/
inductive Source where
  | nop
  | keywr (idx byte : Nat)
  | keylen (n : Nat)
  | keyrd (idx : Nat)
  | perlo (v : Nat)
  | perhi (v : Nat)
  | step (v : Nat)
  | build (slot dir : Nat)
  | chlen (n : Nat)
  | buflen (n : Nat)
  | bufwr (addr byte : Nat)
  | bufrd (addr : Nat)
  | run (dir : Nat)
  | permrd (slot idx : Nat)
  | regrd (slot sel : Nat)
  | reset
  /-- SETPERIOD n. -/
  | setPeriod (n : Int)
  /-- SETSTEP n. -/
  | setStep (n : Int)
  /-- LOADKEY b_0, ..., b_{L-1}. -/
  | loadKey (bytes : List Nat)
  /-- ROTOR slot, dir, key, every, by. -/
  | rotor (slot dir : Nat) (key : List Nat) (every by_ : Int)
  /-- LOADBUF addr, b_0, ..., b_{m-1}. -/
  | loadBuf (addr : Nat) (bytes : List Nat)
  /-- READBUF addr, m. -/
  | readBuf (addr m : Nat)
  deriving DecidableEq, Repr

end Sys2Proof
end

