-- ==== Sys2Proof/WellFormed.lean ====
section
/-! DEFINITION. Which source lines an assembler accepts: "An assembler rejects an operand that does not fit its field.
It does not truncate it." (30_encoding.md R114). An `Instr` carries each operand at exactly its field's width (R103), so
every `Instr` is well-formed; only a source line, whose operands are numbers, can be ill-formed. -/

namespace Sys2Proof

/-- The number `n` fits an unsigned field of `width` bits. -/
def fits (width n : Nat) : Bool := decide (n < 2 ^ width)

/-- Every number of the list is a byte. -/
def allBytes (bs : List Nat) : Bool := bs.all (fits 8)

/-- The range of SETPERIOD's operand: `-2^31 <= n < 2^32` (R115). -/
def periodFits (n : Int) : Bool := decide (-(2 ^ 31) ≤ n ∧ n < 2 ^ 32)

/-- Every operand of the line fits its field (30_encoding.md R114 with the widths of R102; R115 for the
pseudo-instructions, each of whose expanded lines must fit). DESIGN CHOICE, safe (log entry 14): for an empty LOADBUF or
READBUF, which expands to no line, the spec does not say which `addr` is accepted; here `addr <= 65536` is accepted and a
greater one rejected. -/
def Source.wellFormed : Source → Bool
  | .nop => true
  | .keywr idx byte => fits 8 idx && fits 8 byte
  | .keylen n => fits 9 n
  | .keyrd idx => fits 8 idx
  | .perlo v => fits 16 v
  | .perhi v => fits 16 v
  | .step v => fits 8 v
  | .build slot dir => fits 8 slot && fits 2 dir
  | .chlen n => fits 9 n
  | .buflen n => fits 17 n
  | .bufwr addr byte => fits 16 addr && fits 8 byte
  | .bufrd addr => fits 16 addr
  | .run dir => fits 2 dir
  | .permrd slot idx => fits 8 slot && fits 8 idx
  | .regrd slot sel => fits 8 slot && fits 8 sel
  | .reset => true
  | .setPeriod n => periodFits n
  | .setStep _ => true
  | .loadKey bytes => allBytes bytes
  | .rotor slot dir key every _ => fits 8 slot && fits 2 dir && allBytes key && periodFits every
  | .loadBuf addr bytes => allBytes bytes && decide (addr + bytes.length ≤ 2 ^ 16)
  | .readBuf addr m => decide (addr + m ≤ 2 ^ 16)

end Sys2Proof
end

