-- ==== Sys2Proof/Decode.lean ====
section
/-! DEFINITION. Decoding a command word, total over all 2^32 words (30_encoding.md R100 to R113), and after it the
encoder, written from the format columns of R102. -/

namespace Sys2Proof

/-! ### The fields of a command word (R100, R102) -/

/-- `OP = cmd[31:24]` (R100). -/
def opField (w : Word) : BitVec 8 := w.extractLsb' 24 8
/-- FKB `idx` and FSD, FSI `slot`: `cmd[15:8]` (R102). -/
def fieldHi (w : Word) : BitVec 8 := w.extractLsb' 8 8
/-- FKB, FAB `byte`, FI8 `v8` and FSI `i8`: `cmd[7:0]` (R102). -/
def fieldLo (w : Word) : BitVec 8 := w.extractLsb' 0 8
/-- FI9 `v9 = cmd[8:0]` (R102). -/
def field9 (w : Word) : BitVec 9 := w.extractLsb' 0 9
/-- FI16 `v16 = cmd[15:0]` (R102). -/
def field16 (w : Word) : BitVec 16 := w.extractLsb' 0 16
/-- FI17 `v17 = cmd[16:0]` (R102). -/
def field17 (w : Word) : BitVec 17 := w.extractLsb' 0 17
/-- FSD, FD `dir = cmd[1:0]` (R102). -/
def fieldDir (w : Word) : BitVec 2 := w.extractLsb' 0 2
/-- FAB, FA `addr = cmd[23:8]` (R102). -/
def fieldAddr (w : Word) : BitVec 16 := w.extractLsb' 8 16

/-- The opcode map, row by row as 30_encoding.md R109 prints it. -/
def opcodeTable : List OpcodeRow :=
  [ ⟨"NOP",    0x00000000#32, 0xFFFFFFFF#32⟩,
    ⟨"KEYWR",  0x01000000#32, 0xFFFF0000#32⟩,
    ⟨"KEYLEN", 0x02000000#32, 0xFFFFFE00#32⟩,
    ⟨"KEYRD",  0x03000000#32, 0xFFFFFF00#32⟩,
    ⟨"PERLO",  0x04000000#32, 0xFFFF0000#32⟩,
    ⟨"PERHI",  0x05000000#32, 0xFFFF0000#32⟩,
    ⟨"STEP",   0x06000000#32, 0xFFFFFF00#32⟩,
    ⟨"BUILD",  0x07000000#32, 0xFFFF00FC#32⟩,
    ⟨"CHLEN",  0x08000000#32, 0xFFFFFE00#32⟩,
    ⟨"BUFLEN", 0x09000000#32, 0xFFFE0000#32⟩,
    ⟨"BUFWR",  0x0A000000#32, 0xFF000000#32⟩,
    ⟨"BUFRD",  0x0B000000#32, 0xFF0000FF#32⟩,
    ⟨"RUN",    0x0C000000#32, 0xFFFFFFFC#32⟩,
    ⟨"PERMRD", 0x0D000000#32, 0xFFFF0000#32⟩,
    ⟨"REGRD",  0x0E000000#32, 0xFFFF0000#32⟩,
    ⟨"RESET",  0x0F000000#32, 0xFFFFFFFF#32⟩ ]

/-- `w` matches the row (R109). -/
def OpcodeRow.matches (r : OpcodeRow) (w : Word) : Bool := w &&& r.mask == r.pattern

/-- The command `i` when `w` matches its row's mask and pattern, else a 1 stands in a reserved bit (R111). -/
def matchRow (mask pattern w : Word) (i : Instr) : Except DecodeError Instr :=
  if w &&& mask = pattern then .ok i else .error .reservedBit

/-- Decoding of a command word: the row its opcode selects, if the reserved bits are zero (30_encoding.md R109 to
R111). -/
def decode (w : Word) : Except DecodeError Instr :=
  match (opField w).toNat with
  | 0x00 => matchRow 0xFFFFFFFF#32 0x00000000#32 w .nop
  | 0x01 => matchRow 0xFFFF0000#32 0x01000000#32 w (.keywr (fieldHi w) (fieldLo w))
  | 0x02 => matchRow 0xFFFFFE00#32 0x02000000#32 w (.keylen (field9 w))
  | 0x03 => matchRow 0xFFFFFF00#32 0x03000000#32 w (.keyrd (fieldLo w))
  | 0x04 => matchRow 0xFFFF0000#32 0x04000000#32 w (.perlo (field16 w))
  | 0x05 => matchRow 0xFFFF0000#32 0x05000000#32 w (.perhi (field16 w))
  | 0x06 => matchRow 0xFFFFFF00#32 0x06000000#32 w (.step (fieldLo w))
  | 0x07 => matchRow 0xFFFF00FC#32 0x07000000#32 w (.build (fieldHi w) (fieldDir w))
  | 0x08 => matchRow 0xFFFFFE00#32 0x08000000#32 w (.chlen (field9 w))
  | 0x09 => matchRow 0xFFFE0000#32 0x09000000#32 w (.buflen (field17 w))
  | 0x0A => matchRow 0xFF000000#32 0x0A000000#32 w (.bufwr (fieldAddr w) (fieldLo w))
  | 0x0B => matchRow 0xFF0000FF#32 0x0B000000#32 w (.bufrd (fieldAddr w))
  | 0x0C => matchRow 0xFFFFFFFC#32 0x0C000000#32 w (.run (fieldDir w))
  | 0x0D => matchRow 0xFFFF0000#32 0x0D000000#32 w (.permrd (fieldHi w) (fieldLo w))
  | 0x0E => matchRow 0xFFFF0000#32 0x0E000000#32 w (.regrd (fieldHi w) (fieldLo w))
  | 0x0F => matchRow 0xFFFFFFFF#32 0x0F000000#32 w .reset
  | _ => .error .reservedOpcode

/-- The decoder on a word numbered as spec/opcode_table.json numbers it: a command is one 32-bit word (R100), so the
bits above `nbits` are zero and the rest is the word. -/
def decodeTableWord (nbits w : Nat) : Option Instr :=
  match decode (BitVec.ofNat 32 (w % 2 ^ nbits)) with
  | .ok i => some i
  | .error _ => none

/-! ### The encoder -/

/-- The opcode of a command (R109). -/
def Instr.opcode : Instr → BitVec 8
  | .nop => 0x00#8
  | .keywr _ _ => 0x01#8
  | .keylen _ => 0x02#8
  | .keyrd _ => 0x03#8
  | .perlo _ => 0x04#8
  | .perhi _ => 0x05#8
  | .step _ => 0x06#8
  | .build _ _ => 0x07#8
  | .chlen _ => 0x08#8
  | .buflen _ => 0x09#8
  | .bufwr _ _ => 0x0A#8
  | .bufrd _ => 0x0B#8
  | .run _ => 0x0C#8
  | .permrd _ _ => 0x0D#8
  | .regrd _ _ => 0x0E#8
  | .reset => 0x0F#8

/-- The mnemonic of a command (R109). -/
def Instr.mnemonic : Instr → String
  | .nop => "NOP"
  | .keywr _ _ => "KEYWR"
  | .keylen _ => "KEYLEN"
  | .keyrd _ => "KEYRD"
  | .perlo _ => "PERLO"
  | .perhi _ => "PERHI"
  | .step _ => "STEP"
  | .build _ _ => "BUILD"
  | .chlen _ => "CHLEN"
  | .buflen _ => "BUFLEN"
  | .bufwr _ _ => "BUFWR"
  | .bufrd _ => "BUFRD"
  | .run _ => "RUN"
  | .permrd _ _ => "PERMRD"
  | .regrd _ _ => "REGRD"
  | .reset => "RESET"

/-- The 24 operand bits of a command, laid out as the format columns of R102 have them. -/
def Instr.operandBits : Instr → BitVec 24
  | .nop => 0#24
  | .keywr idx byte => 0#8 ++ idx ++ byte
  | .keylen v9 => 0#15 ++ v9
  | .keyrd v8 => 0#16 ++ v8
  | .perlo v16 => 0#8 ++ v16
  | .perhi v16 => 0#8 ++ v16
  | .step v8 => 0#16 ++ v8
  | .build slot dir => 0#8 ++ slot ++ 0#6 ++ dir
  | .chlen v9 => 0#15 ++ v9
  | .buflen v17 => 0#7 ++ v17
  | .bufwr addr byte => addr ++ byte
  | .bufrd addr => addr ++ 0#8
  | .run dir => 0#22 ++ dir
  | .permrd slot i8 => 0#8 ++ slot ++ i8
  | .regrd slot i8 => 0#8 ++ slot ++ i8
  | .reset => 0#24

/-- The word of a command: opcode in bits 31:24, operands in bits 23:0 (R100). -/
def encode (i : Instr) : Word := i.opcode ++ i.operandBits

end Sys2Proof
end

