-- ==== Sys2Proof/Machine/State.lean ====
section
/-! DEFINITION. The machine's state (10_state.md), its port (30_encoding.md R117, R118), the reasons a step could stop,
and the state after reset (R53). -/

namespace Sys2Proof.Machine

/-- A rotor's direction: `Enc = 0`, `Dec = 1` (00_scope.md R15). -/
inductive Direction where
  | enc
  | dec
  deriving DecidableEq, Repr

/-- The kinds of error the block reports (60_exceptions.md R280). IOFailure is reserved and never raised (R286). -/
inductive ErrorKind where
  | invalidKeyPhrase
  | invalidRotationPeriod
  | invalidDirection
  | chainLengthMismatch
  | ioFailure
  | illegalCommand
  | outOfRange
  deriving DecidableEq, Repr

/-- The contents of a byte memory as a list of (address, byte) pairs in canonical form: addresses strictly rising, no
pair whose byte is what an unlisted address reads as (`Memory.unlisted` of Machine/Ops.lean). -/
abbrev Memory := List Host.Cell

/-- One rotor slot (10_state.md R40 to R48). -/
structure Slot where
  /-- VALID (R41). -/
  valid : Bool
  /-- DIR (R42). -/
  dir : Direction
  /-- PERM, 256 bytes (R43). -/
  perm : Memory
  /-- PERIOD (R44). -/
  period : BitVec 31
  /-- STEP (R45). -/
  rotStep : BitVec 8
  /-- OFFSET (R46). -/
  offset : BitVec 8
  /-- PHASE (R47). -/
  phase : BitVec 31
  /-- COUNT (R48). -/
  count : BitVec 32
  deriving DecidableEq, Repr

/-- A response (30_encoding.md R101). -/
structure Response where
  ok : Bool
  code : BitVec 4
  data : Word
  deriving DecidableEq, Repr

/-- One draw of INIT_KEYBUF, INIT_BUF and INIT_PERM (00_scope.md R8): the bytes of each memory from address 0 up, and
for PERM one such list per slot. A place the lists do not reach holds 0 in that draw; a full-length list gives any
contents at all. -/
structure MemoryDraw where
  keyBuf : List Byte
  buf : List Byte
  perms : List (List Byte)
  deriving DecidableEq, Repr

/-- The input pins at one rising edge of `clk` (30_encoding.md R117), and the memory contents that a reset taken at
this edge would draw (00_scope.md R8). -/
structure PortInput where
  /-- `rst_n`. -/
  rstN : Bool
  /-- `cmd_valid`. -/
  cmdValid : Bool
  /-- `cmd_data`. -/
  cmdData : Word
  /-- `rsp_ready`. -/
  rspReady : Bool
  /-- INIT_KEYBUF, INIT_BUF and INIT_PERM at this edge. -/
  draw : MemoryDraw
  deriving DecidableEq, Repr

/-- The whole state of one block and its port. -/
structure State where
  /-- ERR (10_state.md R32). -/
  err : Bool
  /-- ERRCODE (R33). -/
  errCode : BitVec 4
  /-- ERRSLOT (R33). -/
  errSlot : BitVec 8
  /-- ERROP (R33). -/
  errOp : BitVec 8
  /-- KEYLEN (R35). -/
  keyLen : BitVec 9
  /-- PERIOD, the staged rotation period (R36). -/
  period : BitVec 32
  /-- STEP, the staged rotation step (R37). -/
  rotStep : BitVec 8
  /-- CHAINLEN (R38). -/
  chainLen : BitVec 9
  /-- BUFLEN (R39). -/
  bufLen : BitVec 17
  /-- SLOT[0..NR-1] (R40); NR is the list's length (00_scope.md R7). -/
  slots : List Slot
  /-- KEYBUF[0..255] (R49). -/
  keyBuf : Memory
  /-- BUFSZ, fixed for the life of the instance (00_scope.md R7). -/
  bufSize : Nat
  /-- BUF[0..BUFSZ-1] (R49). -/
  buf : Memory
  /-- The response waiting for transfer: `rsp_valid = 1` and rsp_ok, rsp_code, rsp_data, or none (30_encoding.md R118). -/
  rsp : Option Response
  /-- The model's own field: the responses the host has received, oldest first (30_encoding.md R118 step 5). -/
  sent : List Response
  /-- The model's own field, a free input: what a reset in this step draws (00_scope.md R8, 70_reset_and_hazards.md
  R321). Each edge brings its own. -/
  draw : MemoryDraw
  /-- The model's own field: the pins at the rising edges still to come, next edge first. -/
  pins : List PortInput
  deriving DecidableEq, Repr

/-- Why a step could stop with a fault. The spec names no such case: every error is a response and a next state
(60_exceptions.md R290), so there is no constructor (safe: nothing is cut off). -/
inductive Fault where
  deriving DecidableEq, Repr

/-- Why a step could be refused. -/
inductive Refusal where
  /-- Raised by `exec` alone, for a command that has no meaning in the model; no arm raises it (safe). -/
  | notModelled (mnemonic : String)
  deriving DecidableEq, Repr

/-- A draw whose every byte is 0. -/
def MemoryDraw.zero : MemoryDraw := ⟨[], [], []⟩

/-- A slot after a reset whose draw has a zero PERM (10_state.md R53). -/
def Slot.blank : Slot :=
  { valid := false, dir := .enc, perm := [], period := 0, rotStep := 0, offset := 0, phase := 0, count := 0 }

/-- The block right after the power-up reset (10_state.md R53, 70_reset_and_hazards.md R323), in the reference
configuration of 00_scope.md R7 (`NR = 8`, `BUFSZ = 65536`). DESIGN CHOICE, unsafe (log entry 4): the unspecified
memory contents are the zero draw. `State.afterReset` of Machine/Ops.lean is the reset with any draw. -/
def State.reset : State :=
  { err := false, errCode := 0, errSlot := 0, errOp := 0,
    keyLen := 0, period := 0, rotStep := 0, chainLen := 0, bufLen := 0,
    slots := List.replicate 8 Slot.blank,
    keyBuf := [], bufSize := 65536, buf := [],
    rsp := none, sent := [], draw := MemoryDraw.zero, pins := [] }

end Sys2Proof.Machine
end

