-- ==== Sys2Proof/Machine/Ops.lean ====
section
/-! DEFINITION. The named operations over memory and registers: bytes of the three memories (20_memory.md), one update
of State per register, the answers a command can give (00_scope.md R14), taking an error (60_exceptions.md R290), the
ERROR-state gate (R292), and the reset that is the only way back (70_reset_and_hazards.md R321). -/

namespace Sys2Proof.Machine

/-! ### Byte memories -/

/-- What an address that the list does not name reads as. -/
def Memory.unlisted : Byte := 0

/-- `MemRead(space, addr, 1)` (00_scope.md R14, 20_memory.md R73). -/
def Memory.read : Memory → Nat → Byte
  | [], _ => Memory.unlisted
  | (b, v) :: m, a => if a = b then v else Memory.read m a

/-- Put `v` at `a` before the pairs of `m`, all of higher address, keeping the canonical form. -/
def Memory.cons (a : Nat) (v : Byte) (m : Memory) : Memory :=
  if v = Memory.unlisted then m else (a, v) :: m

/-- `MemWrite(space, addr, 1, v)` (00_scope.md R14, 20_memory.md R73). -/
def Memory.write : Memory → Nat → Byte → Memory
  | [], a, v => Memory.cons a v []
  | (b, w) :: m, a, v =>
    if a < b then Memory.cons a v ((b, w) :: m)
    else if a = b then Memory.cons a v m
    else (b, w) :: Memory.write m a v

/-- The canonical form: addresses strictly rising, no pair whose byte is what an unlisted address reads as. -/
def Memory.wf : Memory → Bool
  | [] => true
  | (a, v) :: m => decide (v ≠ Memory.unlisted) && (m.all fun c => decide (a < c.1)) && Memory.wf m

/-- Every listed address is below `size`, the size of the space (20_memory.md R70). -/
def Memory.within (size : Nat) (m : Memory) : Bool := m.all fun c => decide (c.1 < size)

/-- The memory that holds the bytes of a list at the addresses from `a` up. -/
def Memory.fromBytes : Nat → List Byte → Memory
  | _, [] => []
  | a, v :: vs => Memory.cons a v (Memory.fromBytes (a + 1) vs)

/-- A space of `size` bytes that holds the first `size` bytes of a list from address 0. -/
def Memory.ofBytes (size : Nat) (vs : List Byte) : Memory := Memory.fromBytes 0 (vs.take size)

/-- The `n` bytes of `m` from address `a` up, in address order (20_memory.md R74). -/
def Memory.bytesFrom (m : Memory) : Nat → Nat → List Byte
  | _, 0 => []
  | a, n + 1 => m.read a :: Memory.bytesFrom m (a + 1) n

/-! ### Registers: one update each -/

/-- `NR`, the number of slots (00_scope.md R7). -/
def State.nr (s : State) : Nat := s.slots.length

/-- The parameters of the instance (00_scope.md R7). -/
def State.config (s : State) : Config := ⟨s.nr, s.bufSize⟩

/-- `SLOT[k]` (10_state.md R40). Every caller has checked `k < NR`. -/
def State.slotAt (s : State) (k : Nat) : Slot := s.slots.getD k Slot.blank

/-- `SLOT[k] <- sl` (10_state.md R40). -/
def State.withSlot (s : State) (k : Nat) (sl : Slot) : State := { s with slots := s.slots.set k sl }

/-- `KEYLEN <- v` (10_state.md R35). -/
def State.withKeyLen (s : State) (v : BitVec 9) : State := { s with keyLen := v }

/-- `PERIOD <- v` (10_state.md R36). -/
def State.withPeriod (s : State) (v : BitVec 32) : State := { s with period := v }

/-- `STEP <- v` (10_state.md R37). -/
def State.withRotStep (s : State) (v : BitVec 8) : State := { s with rotStep := v }

/-- `CHAINLEN <- v` (10_state.md R38). -/
def State.withChainLen (s : State) (v : BitVec 9) : State := { s with chainLen := v }

/-- `BUFLEN <- v` (10_state.md R39). -/
def State.withBufLen (s : State) (v : BitVec 17) : State := { s with bufLen := v }

/-- The contents of KEYBUF (10_state.md R49). -/
def State.withKeyBuf (s : State) (m : Memory) : State := { s with keyBuf := m }

/-- The contents of BUF (10_state.md R49). -/
def State.withBuf (s : State) (m : Memory) : State := { s with buf := m }

/-- The error registers ERR, ERRCODE, ERRSLOT and ERROP (10_state.md R33). -/
def State.withErrorRegs (s : State) (err : Bool) (code : BitVec 4) (slot op : BitVec 8) : State :=
  { s with err := err, errCode := code, errSlot := slot, errOp := op }

/-! ### The port -/

/-- Drive `rsp_valid = 1` with this response (30_encoding.md R118 step 3). -/
def State.withRsp (s : State) (r : Response) : State := { s with rsp := some r }

/-- The response is transferred, and the block is idle again (30_encoding.md R118 steps 3 to 5). -/
def State.transfer (s : State) (r : Response) : State := { s with rsp := none, sent := s.sent ++ [r] }

/-- One rising edge is over: what it draws, and the samples still to come. -/
def State.withEdge (s : State) (d : MemoryDraw) (ps : List PortInput) : State := { s with draw := d, pins := ps }

/-! ### Answers -/

/-- The code of an error (60_exceptions.md R280). -/
def ErrorKind.code : ErrorKind → BitVec 4
  | .invalidKeyPhrase => 1#4
  | .invalidRotationPeriod => 2#4
  | .invalidDirection => 3#4
  | .chainLengthMismatch => 4#4
  | .ioFailure => 5#4
  | .illegalCommand => 6#4
  | .outOfRange => 7#4

/-- The success response with this data (30_encoding.md R101). -/
def Response.success (data : Word) : Response := ⟨true, 0#4, data⟩

/-- The response of an error or a refusal with this code (30_encoding.md R101). -/
def Response.failure (code : BitVec 4) : Response := ⟨false, code, 0#32⟩

/-- `respond(data)` (00_scope.md R14). -/
def respond (data : Word) (s : State) : Host.Outcome State Fault Refusal :=
  .next (s.withRsp (Response.success data))

/-- TAKING AN ERROR: `raise Error(kind, slot)` in a command whose opcode field is `op` (60_exceptions.md R290). The
error registers record it, the host gets the error response, and nothing else changes: there is no vector and no
program counter. -/
def raiseError (kind : ErrorKind) (slot op : BitVec 8) (s : State) : Host.Outcome State Fault Refusal :=
  .next ((s.withErrorRegs true kind.code slot op).withRsp (Response.failure kind.code))

/-- A word refused in the ERROR state: no state changes and the stored ERRCODE is answered (60_exceptions.md R292). -/
def refuseInError (s : State) : Host.Outcome State Fault Refusal :=
  .next (s.withRsp (Response.failure s.errCode))

/-- The ERROR-state gate of every command but NOP, RESET and REGRD (60_exceptions.md R292): refused while `ERR = 1`,
else executed. -/
def whenNoError (body : State → Host.Outcome State Fault Refusal) (s : State) : Host.Outcome State Fault Refusal :=
  if s.err then refuseInError s else body s

/-! ### Reset, the only return from the ERROR state (60_exceptions.md R293) -/

/-- The slots after a reset, with PERM drawn (10_state.md R53). -/
def resetSlots (perms : List (List Byte)) (nr : Nat) : List Slot :=
  (List.range nr).map fun k => { Slot.blank with perm := Memory.ofBytes 256 (perms.getD k []) }

/-- `ResetState()` with the draw `d` (70_reset_and_hazards.md R321, values in 10_state.md R53). The port is idle and a
response not yet transferred is lost (R322, R323). NR and BUFSZ stay (00_scope.md R7). -/
def State.afterReset (s : State) (d : MemoryDraw) : State :=
  { s with
    err := false, errCode := 0, errSlot := 0, errOp := 0,
    keyLen := 0, period := 0, rotStep := 0, chainLen := 0, bufLen := 0,
    slots := resetSlots d.perms s.nr,
    keyBuf := Memory.ofBytes 256 d.keyBuf,
    buf := Memory.ofBytes s.bufSize d.buf,
    rsp := none }

end Sys2Proof.Machine
end

