-- ==== Sys2Proof/Machine/Operands.lean ====
section
/-! DEFINITION. The operand forms of the commands (30_encoding.md R103 to R108) and the staged inputs BUILD reads
(10_state.md R35, R36). -/

namespace Sys2Proof.Machine

/-- The 2-bit `dir` field: 0 is Enc, 1 is Dec, 2 and 3 are not directions (30_encoding.md R108). -/
def dirOperand (dir : BitVec 2) : Option Direction :=
  match dir.toNat with
  | 0 => some .enc
  | 1 => some .dec
  | _ => none

/-- The stored bit of a direction (00_scope.md R15). -/
def Direction.toBit : Direction → BitVec 1
  | .enc => 0#1
  | .dec => 1#1

/-- `slot < NR` (30_encoding.md R104). -/
def State.slotInRange (s : State) (slot : BitVec 8) : Bool := decide (slot.toNat < s.nr)

/-- `addr < BUFSZ` (30_encoding.md R104, 20_memory.md R72). -/
def State.addrInRange (s : State) (addr : BitVec 16) : Bool := decide (addr.toNat < s.bufSize)

/-- `v17 <= BUFSZ` (30_encoding.md R105). -/
def State.lengthInRange (s : State) (v17 : BitVec 17) : Bool := decide (v17.toNat ≤ s.bufSize)

/-- `PERIOD` is a legal rotation period: as a signed number it is positive (10_state.md R36). -/
def legalPeriod (p : Word) : Bool := !(p == 0#32) && !(p.getLsbD 31)

/-- The effective key length `min(KEYLEN, 256)` (40_key_schedule.md R149). -/
def State.effectiveKeyLen (s : State) : Nat := min s.keyLen.toNat 256

/-- The staged key phrase `KEYBUF[0..L-1]` (40_key_schedule.md R149, R150). -/
def State.stagedKey (s : State) : List Byte := s.keyBuf.bytesFrom 0 s.effectiveKeyLen

/-- `{PERIOD[31:16], v16}` (40_key_schedule.md R143). -/
def replaceLow (p : Word) (v16 : BitVec 16) : Word := p.extractLsb' 16 16 ++ v16

/-- `{v16, PERIOD[15:0]}` (40_key_schedule.md R144). -/
def replaceHigh (p : Word) (v16 : BitVec 16) : Word := v16 ++ p.extractLsb' 0 16

end Sys2Proof.Machine
end

