-- ==== Sys2Proof/Machine/Flags.lean ====
section
/-! DEFINITION. The block's only flag, ERR, as software sees it in STATUS (10_state.md R32, R34), and the REGRD selector
map (43_host_control.md R253). -/

namespace Sys2Proof.Machine

/-- STATUS: ERROP in 23:16, ERRSLOT in 15:8, ERRCODE in 7:4, ERR in bit 0, every other bit 0 (10_state.md R34). -/
def State.statusWord (s : State) : Word :=
  0#8 ++ s.errOp ++ s.errSlot ++ s.errCode ++ 0#3 ++ BitVec.ofBool s.err

/-- `GlobalReg(sel)`: the value of a global selector, none where the selector is not global (43_host_control.md
R253). -/
def State.globalReg (s : State) (sel : BitVec 8) : Option Word :=
  match sel.toNat with
  | 0x00 => some s.statusWord
  | 0x01 => some (s.keyLen.setWidth 32)
  | 0x02 => some s.period
  | 0x03 => some (s.rotStep.setWidth 32)
  | 0x04 => some (s.chainLen.setWidth 32)
  | 0x05 => some (s.bufLen.setWidth 32)
  | 0x06 => some (BitVec.ofNat 32 s.nr)
  | 0x07 => some (BitVec.ofNat 32 s.bufSize)
  | _ => none

/-- `SlotReg(slot, sel)`: the value of a per-slot selector, none where the selector is not per-slot
(43_host_control.md R253). -/
def Slot.reg (sl : Slot) (sel : BitVec 8) : Option Word :=
  match sel.toNat with
  | 0x10 => some ((sl.dir.toBit ++ BitVec.ofBool sl.valid).setWidth 32)
  | 0x11 => some (sl.period.setWidth 32)
  | 0x12 => some (sl.rotStep.setWidth 32)
  | 0x13 => some (sl.offset.setWidth 32)
  | 0x14 => some (sl.phase.setWidth 32)
  | 0x15 => some sl.count
  | _ => none

/-- What REGRD reads, or the error it raises and the slot that error names (43_host_control.md R252). -/
def State.readRegister (s : State) (slot sel : BitVec 8) : Except (ErrorKind × BitVec 8) Word :=
  match s.globalReg sel with
  | some v => if slot = 0#8 then .ok v else .error (.illegalCommand, 0#8)
  | none =>
    match (s.slotAt slot.toNat).reg sel with
    | some v => if s.slotInRange slot then .ok v else .error (.outOfRange, slot)
    | none => .error (.illegalCommand, 0#8)

end Sys2Proof.Machine
end

