-- ==== Sys2Proof/Machine/Rotor.lean ====
section
/-! DEFINITION. The rotor transform of 41_rotor_transform.md: one byte through one rotor, and a sequence of bytes. -/

namespace Sys2Proof.Machine

/-- The byte a rotor puts out for `x`, with the offset before this byte (41_rotor_transform.md R181, R182). -/
def Slot.output (sl : Slot) (x : Byte) : Byte :=
  match sl.dir with
  | .enc => sl.perm.read (x + sl.offset).toNat
  | .dec => sl.perm.read x.toNat - sl.offset

/-- The rotation state after one byte (41_rotor_transform.md R180, R183): COUNT goes up by one mod 2^32; when PHASE
reaches PERIOD it returns to 0 and a rotation event adds STEP to OFFSET mod 256. -/
def Slot.advance (sl : Slot) : Slot :=
  if sl.phase.toNat + 1 = sl.period.toNat then
    { sl with count := sl.count + 1, phase := 0, offset := sl.offset + sl.rotStep }
  else
    { sl with count := sl.count + 1, phase := sl.phase + 1 }

/-- `RotorStep(s, x)`: the output byte and the slot afterwards (41_rotor_transform.md R180). -/
def rotorStep (sl : Slot) (x : Byte) : Byte × Slot := (sl.output x, sl.advance)

/-- `Transform(s, x_0 .. x_{m-1})`: RotorStep on each byte in order (41_rotor_transform.md R188). -/
def transform : Slot → List Byte → List Byte × Slot
  | sl, [] => ([], sl)
  | sl, x :: xs =>
    let r := transform (rotorStep sl x).2 xs
    ((rotorStep sl x).1 :: r.1, r.2)

end Sys2Proof.Machine
end

