-- ==== Sys2Proof/Machine/KeySchedule.lean ====
section
/-! DEFINITION. rotor_key_schedule and rotor construction (40_key_schedule.md): KEYWR, KEYLEN, KEYRD, PERLO, PERHI,
STEP and BUILD. -/

namespace Sys2Proof.Machine

/-! ### The key schedule -/

/-- Swap `S[i]` and `S[j]` (40_key_schedule.md R146). -/
def swapEntries (S : List Byte) (i j : Nat) : List Byte := (S.set i (S.getD j 0#8)).set j (S.getD i 0#8)

/-- The identity table, `S[i] <- i` (40_key_schedule.md R146). -/
def identityTable : List Byte := (List.range 256).map (BitVec.ofNat 8)

/-- `n` iterations of the second loop of R146, from index `i` with accumulator `j`. -/
def keyScheduleLoop (K : List Byte) : Nat → Nat → Byte → List Byte → List Byte
  | 0, _, _, S => S
  | n + 1, i, j, S =>
    let j' := j + S.getD i 0#8 + K.getD (i % K.length) 0#8
    keyScheduleLoop K n (i + 1) j' (swapEntries S i j'.toNat)

/-- `KeySchedule(K, L)` with `L` the length of `K` (40_key_schedule.md R146). -/
def keySchedule (K : List Byte) : List Byte := keyScheduleLoop K 256 0 0#8 identityTable

/-- `D[S[i]] <- i` for the entries of `S` from index `i` on (40_key_schedule.md R147). -/
def inverseLoop : List Byte → Nat → List Byte → List Byte
  | [], _, D => D
  | v :: S, i, D => inverseLoop S (i + 1) (D.set v.toNat (BitVec.ofNat 8 i))

/-- `Inverse(S)`, over all 256 indices (40_key_schedule.md R147). -/
def inverseTable (S : List Byte) : List Byte := inverseLoop S 0 (List.replicate 256 0#8)

/-- The table BUILD stores for a direction (40_key_schedule.md R150). -/
def rotorTable (d : Direction) (K : List Byte) : List Byte :=
  match d with
  | .enc => keySchedule K
  | .dec => inverseTable (keySchedule K)

/-! ### Rotor construction -/

/-- BUILD's checks in their order: the direction to build, or the error (40_key_schedule.md R150). -/
def State.checkBuild (s : State) (slot : BitVec 8) (dir : BitVec 2) : Except ErrorKind Direction :=
  if !s.slotInRange slot then .error .outOfRange
  else
    match dirOperand dir with
    | none => .error .invalidDirection
    | some d =>
      if s.keyLen = 0#9 then .error .invalidKeyPhrase
      else if !legalPeriod s.period then .error .invalidRotationPeriod
      else .ok d

/-- The rotor that BUILD constructs from the staging registers (40_key_schedule.md R150). -/
def State.builtSlot (s : State) (d : Direction) : Slot :=
  { valid := true, dir := d, perm := Memory.ofBytes 256 (rotorTable d s.stagedKey),
    period := s.period.extractLsb' 0 31, rotStep := s.rotStep, offset := 0, phase := 0, count := 0 }

/-! ### The commands -/

/-- KEYWR (40_key_schedule.md R140). -/
def execKeywr (idx byte : BitVec 8) (s : State) : Host.Outcome State Fault Refusal :=
  whenNoError (fun s => respond 0#32 (s.withKeyBuf (s.keyBuf.write idx.toNat byte))) s

/-- KEYLEN (40_key_schedule.md R141). -/
def execKeylen (v9 : BitVec 9) (s : State) : Host.Outcome State Fault Refusal :=
  whenNoError (fun s => respond 0#32 (s.withKeyLen v9)) s

/-- KEYRD (40_key_schedule.md R142). -/
def execKeyrd (v8 : BitVec 8) (s : State) : Host.Outcome State Fault Refusal :=
  whenNoError (fun s => respond ((s.keyBuf.read v8.toNat).setWidth 32) s) s

/-- PERLO (40_key_schedule.md R143). -/
def execPerlo (v16 : BitVec 16) (s : State) : Host.Outcome State Fault Refusal :=
  whenNoError (fun s => respond 0#32 (s.withPeriod (replaceLow s.period v16))) s

/-- PERHI (40_key_schedule.md R144). -/
def execPerhi (v16 : BitVec 16) (s : State) : Host.Outcome State Fault Refusal :=
  whenNoError (fun s => respond 0#32 (s.withPeriod (replaceHigh s.period v16))) s

/-- STEP (40_key_schedule.md R145). -/
def execStep (v8 : BitVec 8) (s : State) : Host.Outcome State Fault Refusal :=
  whenNoError (fun s => respond 0#32 (s.withRotStep v8)) s

/-- BUILD (40_key_schedule.md R150). -/
def execBuild (slot : BitVec 8) (dir : BitVec 2) (s : State) : Host.Outcome State Fault Refusal :=
  whenNoError (fun s =>
    match s.checkBuild slot dir with
    | .error kind => raiseError kind slot (Instr.build slot dir).opcode s
    | .ok d => respond 0#32 (s.withSlot slot.toNat (s.builtSlot d))) s

end Sys2Proof.Machine
end

