-- ==== Sys2Proof/Machine/Chain.lean ====
section
/-! DEFINITION. rotor_chain_composer (42_chain.md): CHLEN, BUFLEN, BUFWR, BUFRD and RUN. -/

namespace Sys2Proof.Machine

/-! ### The chain run -/

/-- The lowest index, counted from `k`, of a slot whose VALID is not `(index < n)` (42_chain.md R215). -/
def firstMismatch (n : Nat) : Nat → List Slot → Option Nat
  | _, [] => none
  | k, sl :: sls => if sl.valid != decide (k < n) then some k else firstMismatch n (k + 1) sls

/-- The lowest index, counted from `k`, of a slot below `n` whose DIR is not `d` (42_chain.md R215). -/
def firstWrongDir (d : Direction) (n : Nat) : Nat → List Slot → Option Nat
  | _, [] => none
  | k, sl :: sls => if k < n ∧ sl.dir ≠ d then some k else firstWrongDir d n (k + 1) sls

/-- `CheckChain(dir)`: the direction to run, or the error and the slot it names (42_chain.md R215). -/
def State.checkChain (s : State) (dir : BitVec 2) : Except (ErrorKind × BitVec 8) Direction :=
  match dirOperand dir with
  | none => .error (.invalidDirection, 0#8)
  | some d =>
    if s.chainLen.toNat = 0 ∨ s.nr < s.chainLen.toNat then .error (.chainLengthMismatch, 0#8)
    else
      match firstMismatch s.chainLen.toNat 0 s.slots with
      | some k => .error (.chainLengthMismatch, BitVec.ofNat 8 k)
      | none =>
        match firstWrongDir d s.chainLen.toNat 0 s.slots with
        | some k => .error (.invalidDirection, BitVec.ofNat 8 k)
        | none => .ok d

/-- The stages in order: ascending to encrypt, descending to decrypt (42_chain.md R214, R216). -/
def stageOrder (d : Direction) (n : Nat) : List Nat :=
  match d with
  | .enc => List.range n
  | .dec => (List.range n).reverse

/-- `BUF[a] <- RotorStep(s, BUF[a])` for the `n` addresses from `a` up: the slot and the buffer afterwards
(42_chain.md R214). -/
def runBytes : Nat → Nat → Slot → Memory → Slot × Memory
  | 0, _, sl, m => (sl, m)
  | n + 1, a, sl, m =>
    let r := rotorStep sl (m.read a)
    runBytes n (a + 1) r.2 (m.write a r.1)

/-- One whole stage: slot `k` over `BUF[0..BUFLEN-1]` (42_chain.md R214, R216). -/
def State.runStage (s : State) (k : Nat) : State :=
  let r := runBytes s.bufLen.toNat 0 (s.slotAt k) s.buf
  (s.withSlot k r.1).withBuf r.2

/-- The stages of the list, one after another (42_chain.md R214). -/
def State.runStages : State → List Nat → State
  | s, [] => s
  | s, k :: ks => State.runStages (s.runStage k) ks

/-- The chain over the buffer in a direction (42_chain.md R214). -/
def State.runChain (s : State) (d : Direction) : State := s.runStages (stageOrder d s.chainLen.toNat)

/-! ### The commands -/

/-- CHLEN (42_chain.md R210). -/
def execChlen (v9 : BitVec 9) (s : State) : Host.Outcome State Fault Refusal :=
  whenNoError (fun s => respond 0#32 (s.withChainLen v9)) s

/-- BUFLEN (42_chain.md R211). -/
def execBuflen (v17 : BitVec 17) (s : State) : Host.Outcome State Fault Refusal :=
  whenNoError (fun s =>
    if s.lengthInRange v17 then respond 0#32 (s.withBufLen v17)
    else raiseError .outOfRange 0#8 (Instr.buflen v17).opcode s) s

/-- BUFWR (42_chain.md R212). -/
def execBufwr (addr : BitVec 16) (byte : BitVec 8) (s : State) : Host.Outcome State Fault Refusal :=
  whenNoError (fun s =>
    if s.addrInRange addr then respond 0#32 (s.withBuf (s.buf.write addr.toNat byte))
    else raiseError .outOfRange 0#8 (Instr.bufwr addr byte).opcode s) s

/-- BUFRD (42_chain.md R213). -/
def execBufrd (addr : BitVec 16) (s : State) : Host.Outcome State Fault Refusal :=
  whenNoError (fun s =>
    if s.addrInRange addr then respond ((s.buf.read addr.toNat).setWidth 32) s
    else raiseError .outOfRange 0#8 (Instr.bufrd addr).opcode s) s

/-- RUN (42_chain.md R214). -/
def execRun (dir : BitVec 2) (s : State) : Host.Outcome State Fault Refusal :=
  whenNoError (fun s =>
    match s.checkChain dir with
    | .error e => raiseError e.1 e.2 (Instr.run dir).opcode s
    | .ok d => respond 0#32 (s.runChain d)) s

end Sys2Proof.Machine
end

