-- ==== Sys2Proof/Machine/HostControl.lean ====
section
/-! DEFINITION. Host control and observation (43_host_control.md): NOP, PERMRD, REGRD and RESET. -/

namespace Sys2Proof.Machine

/-- NOP, accepted in the ERROR state too (43_host_control.md R250). -/
def execNop (s : State) : Host.Outcome State Fault Refusal := respond 0#32 s

/-- PERMRD (43_host_control.md R251). -/
def execPermrd (slot i8 : BitVec 8) (s : State) : Host.Outcome State Fault Refusal :=
  whenNoError (fun s =>
    if s.slotInRange slot then respond (((s.slotAt slot.toNat).perm.read i8.toNat).setWidth 32) s
    else raiseError .outOfRange slot (Instr.permrd slot i8).opcode s) s

/-- REGRD (43_host_control.md R252): accepted in the ERROR state too, except where it would raise an error, which the
gate refuses there (60_exceptions.md R292). -/
def execRegrd (slot i8 : BitVec 8) (s : State) : Host.Outcome State Fault Refusal :=
  match s.readRegister slot i8 with
  | .ok v => respond v s
  | .error e => whenNoError (raiseError e.1 e.2 (Instr.regrd slot i8).opcode) s

/-- RESET, the only command that leaves the ERROR state (43_host_control.md R254). -/
def execReset (s : State) : Host.Outcome State Fault Refusal := respond 0#32 (s.afterReset s.draw)

end Sys2Proof.Machine
end

