-- ==== Sys2Proof/Machine/Dispatch.lean ====
section
/-! DEFINITION. The meaning of each command, one arm per constructor of Instr. -/

namespace Sys2Proof.Machine

/-- The effect of an accepted command (00_scope.md R11). -/
def exec (i : Instr) (s : State) : Host.Outcome State Fault Refusal :=
  match i with
  | .nop => Sys2Proof.Machine.execNop s
  | .keywr idx byte => Sys2Proof.Machine.execKeywr idx byte s
  | .keylen v9 => Sys2Proof.Machine.execKeylen v9 s
  | .keyrd v8 => Sys2Proof.Machine.execKeyrd v8 s
  | .perlo v16 => Sys2Proof.Machine.execPerlo v16 s
  | .perhi v16 => Sys2Proof.Machine.execPerhi v16 s
  | .step v8 => Sys2Proof.Machine.execStep v8 s
  | .build slot dir => Sys2Proof.Machine.execBuild slot dir s
  | .chlen v9 => Sys2Proof.Machine.execChlen v9 s
  | .buflen v17 => Sys2Proof.Machine.execBuflen v17 s
  | .bufwr addr byte => Sys2Proof.Machine.execBufwr addr byte s
  | .bufrd addr => Sys2Proof.Machine.execBufrd addr s
  | .run dir => Sys2Proof.Machine.execRun dir s
  | .permrd slot i8 => Sys2Proof.Machine.execPermrd slot i8 s
  | .regrd slot i8 => Sys2Proof.Machine.execRegrd slot i8 s
  | .reset => Sys2Proof.Machine.execReset s

end Sys2Proof.Machine
end

