-- ==== Sys2Proof/Machine/Port.lean ====
section
/-! DEFINITION. The host port (30_encoding.md R117, R118) and the reset pin (70_reset_and_hazards.md R320, R322): what
one rising edge of `clk` does. -/

namespace Sys2Proof.Machine

/-- `cmd_ready`: 1 only while the block is idle, and 0 while `rst_n` is low (30_encoding.md R118 step 2,
70_reset_and_hazards.md R322). -/
def State.cmdReady (s : State) (rstN : Bool) : Bool := rstN && s.rsp.isNone

/-- `rsp_valid`: 1 while a response waits for transfer, and 0 while `rst_n` is low (30_encoding.md R118 step 3,
70_reset_and_hazards.md R322). -/
def State.rspValid (s : State) (rstN : Bool) : Bool := rstN && s.rsp.isSome

/-- A word that matches no row raises IllegalCommand, or is refused in the ERROR state (30_encoding.md R110,
60_exceptions.md R285, R292). -/
def illegalCommand (w : Word) (s : State) : Host.Outcome State Fault Refusal :=
  whenNoError (raiseError .illegalCommand 0#8 (opField w)) s

/-- Execute an accepted command word (30_encoding.md R118 step 3, 60_exceptions.md R289). -/
def acceptCommand (w : Word) (s : State) : Host.Outcome State Fault Refusal :=
  match decode w with
  | .ok i => exec i s
  | .error _ => illegalCommand w s

/-- One rising edge with the pins `p`: a reset while `rst_n` is low; else the transfer of a waiting response, if the
host is ready for it; else, the block being idle, the acceptance of an offered command (30_encoding.md R118,
70_reset_and_hazards.md R320, R322). -/
def portEdge (p : PortInput) (s : State) : Host.Outcome State Fault Refusal :=
  if !p.rstN then .next (s.afterReset p.draw)
  else
    match s.rsp with
    | some r => if p.rspReady then .next (s.transfer r) else .next s
    | none => if p.cmdValid then acceptCommand p.cmdData s else .next s

/-- The pins of an edge at which the host offers the word `w`. -/
def offerCommand (w : Word) (d : MemoryDraw) : PortInput :=
  { rstN := true, cmdValid := true, cmdData := w, rspReady := false, draw := d }

/-- The pins of an edge at which the host takes a response and offers nothing. -/
def takeResponse (d : MemoryDraw) : PortInput :=
  { rstN := true, cmdValid := false, cmdData := 0#32, rspReady := true, draw := d }

/-- The pins of an edge with `rst_n` low. -/
def holdReset (d : MemoryDraw) : PortInput :=
  { rstN := false, cmdValid := false, cmdData := 0#32, rspReady := false, draw := d }

/-- The edges at which a host sends these words one after another and takes the response to each. -/
def hostSends (d : MemoryDraw) : List Word → List PortInput
  | [] => []
  | w :: ws => offerCommand w d :: takeResponse d :: hostSends d ws

end Sys2Proof.Machine
end

