-- ==== Sys2Proof/Machine/Step.lean ====
section
/-! DEFINITION. One step of the machine: one rising edge of `clk` at which the block is not executing a command. -/

namespace Sys2Proof.Machine

/-- Take the next edge's pins. Where the host has nothing more to say the block waits with all state kept
(60_exceptions.md R302). -/
def step (s : State) : Host.Outcome State Fault Refusal :=
  match s.pins with
  | [] => .next s
  | p :: ps => portEdge p (s.withEdge p.draw ps)

/-- The block idle, with the command word `w` offered at the very next edge. -/
def State.withFetchWord (s : State) (nbits w : Nat) : State :=
  { s with
    rsp := none,
    pins := offerCommand (BitVec.ofNat 32 (w % 2 ^ nbits)) s.draw :: s.pins }

end Sys2Proof.Machine
end

