-- ==== Sys2Proof/Machine/Assembler.lean ====
section
/-! DEFINITION. The assembler of 30_encoding.md R114 and R115: what each source line expands to, and the canonical run of
70_reset_and_hazards.md R331. -/

namespace Sys2Proof.Machine

/-- SETPERIOD: PERLO then PERHI of `n mod 2^32` (30_encoding.md R115). -/
def expandSetPeriod (n : Int) : List Instr :=
  [.perlo ((BitVec.ofInt 32 n).extractLsb' 0 16), .perhi ((BitVec.ofInt 32 n).extractLsb' 16 16)]

/-- SETSTEP: STEP of `n mod 256` (30_encoding.md R115). -/
def expandSetStep (n : Int) : List Instr := [.step (BitVec.ofInt 8 n)]

/-- KEYWR of each byte, the first at index `i` (30_encoding.md R115). -/
def expandKeyBytes : Nat → List Nat → List Instr
  | _, [] => []
  | i, b :: bs => .keywr (BitVec.ofNat 8 i) (BitVec.ofNat 8 b) :: expandKeyBytes (i + 1) bs

/-- LOADKEY: the first 256 bytes, then KEYLEN (30_encoding.md R115). -/
def expandLoadKey (bytes : List Nat) : List Instr :=
  expandKeyBytes 0 (bytes.take 256) ++ [.keylen (BitVec.ofNat 9 (min bytes.length 256))]

/-- LOADBUF: BUFWR of each byte, the first at `addr` (30_encoding.md R115). -/
def expandLoadBuf : Nat → List Nat → List Instr
  | _, [] => []
  | a, b :: bs => .bufwr (BitVec.ofNat 16 a) (BitVec.ofNat 8 b) :: expandLoadBuf (a + 1) bs

/-- READBUF: BUFRD of `m` addresses from `addr` up (30_encoding.md R115). -/
def expandReadBuf : Nat → Nat → List Instr
  | _, 0 => []
  | a, m + 1 => .bufrd (BitVec.ofNat 16 a) :: expandReadBuf (a + 1) m

/-- The commands a well-formed source line stands for (30_encoding.md R114, R115). -/
def expand : Source → List Instr
  | .nop => [.nop]
  | .keywr idx byte => [.keywr (BitVec.ofNat 8 idx) (BitVec.ofNat 8 byte)]
  | .keylen n => [.keylen (BitVec.ofNat 9 n)]
  | .keyrd idx => [.keyrd (BitVec.ofNat 8 idx)]
  | .perlo v => [.perlo (BitVec.ofNat 16 v)]
  | .perhi v => [.perhi (BitVec.ofNat 16 v)]
  | .step v => [.step (BitVec.ofNat 8 v)]
  | .build slot dir => [.build (BitVec.ofNat 8 slot) (BitVec.ofNat 2 dir)]
  | .chlen n => [.chlen (BitVec.ofNat 9 n)]
  | .buflen n => [.buflen (BitVec.ofNat 17 n)]
  | .bufwr addr byte => [.bufwr (BitVec.ofNat 16 addr) (BitVec.ofNat 8 byte)]
  | .bufrd addr => [.bufrd (BitVec.ofNat 16 addr)]
  | .run dir => [.run (BitVec.ofNat 2 dir)]
  | .permrd slot idx => [.permrd (BitVec.ofNat 8 slot) (BitVec.ofNat 8 idx)]
  | .regrd slot sel => [.regrd (BitVec.ofNat 8 slot) (BitVec.ofNat 8 sel)]
  | .reset => [.reset]
  | .setPeriod n => expandSetPeriod n
  | .setStep n => expandSetStep n
  | .loadKey bytes => expandLoadKey bytes
  | .rotor slot dir key every by_ =>
    expandLoadKey key ++ expandSetPeriod every ++ expandSetStep by_ ++
      [.build (BitVec.ofNat 8 slot) (BitVec.ofNat 2 dir)]
  | .loadBuf addr bytes => expandLoadBuf addr bytes
  | .readBuf addr m => expandReadBuf addr m

/-- Assemble a line, or reject it because an operand does not fit (30_encoding.md R114). -/
def assemble (l : Source) : Option (List Instr) := if l.wellFormed then some (expand l) else none

/-- The ROTOR lines of a chain, the first for slot `k` (70_reset_and_hazards.md R331 step 2). -/
def canonicalRotors (dir : Nat) : Nat → List (List Nat × Int × Int) → List Source
  | _, [] => []
  | k, (key, every, by_) :: chain => .rotor k dir key every by_ :: canonicalRotors dir (k + 1) chain

/-- The canonical command sequence for one cipher run: chain of (key, rotateEvery, rotateBy), direction and message
(70_reset_and_hazards.md R331). -/
def canonicalRun (dir : Nat) (chain : List (List Nat × Int × Int)) (message : List Nat) : List Source :=
  [.reset] ++ canonicalRotors dir 0 chain ++
    [.chlen chain.length, .buflen message.length, .loadBuf 0 message, .run dir, .readBuf 0 message.length]

end Sys2Proof.Machine
end

