-- ==== Sys2Proof/Safety.lean ====
section
/-! DEFINITION. The terms claims are stated in: what is unchanged between two states, when a state is well formed, the
rotation law, when a chain may run, and the clear forms that RUN is compared with. -/

namespace Sys2Proof.Machine

/-! ### What is unchanged -/

/-- ERR, ERRCODE, ERRSLOT and ERROP are unchanged. -/
def SameErrorRegs (s t : State) : Prop :=
  t.err = s.err ∧ t.errCode = s.errCode ∧ t.errSlot = s.errSlot ∧ t.errOp = s.errOp

/-- KEYLEN, PERIOD and STEP are unchanged. -/
def SameStaging (s t : State) : Prop :=
  t.keyLen = s.keyLen ∧ t.period = s.period ∧ t.rotStep = s.rotStep

/-- CHAINLEN and BUFLEN are unchanged. -/
def SameChainRegs (s t : State) : Prop := t.chainLen = s.chainLen ∧ t.bufLen = s.bufLen

/-- Every byte of KEYBUF reads as before. -/
def SameKeyBuf (s t : State) : Prop := ∀ a, t.keyBuf.read a = s.keyBuf.read a

/-- Every byte of BUF reads as before. -/
def SameBuf (s t : State) : Prop := ∀ a, t.buf.read a = s.buf.read a

/-- The registers of a slot, all but PERM, are unchanged. -/
def SameSlotRegs (x y : Slot) : Prop :=
  y.valid = x.valid ∧ y.dir = x.dir ∧ y.period = x.period ∧ y.rotStep = x.rotStep ∧ y.offset = x.offset ∧
    y.phase = x.phase ∧ y.count = x.count

/-- Every entry of PERM reads as before. -/
def SamePerm (x y : Slot) : Prop := ∀ i, y.perm.read i = x.perm.read i

/-- Every slot but those in `ks` is unchanged, PERM included. -/
def SameSlotsBut (ks : List Nat) (s t : State) : Prop :=
  ∀ k, k ∉ ks → SameSlotRegs (s.slotAt k) (t.slotAt k) ∧ SamePerm (s.slotAt k) (t.slotAt k)

/-- Every slot is unchanged. -/
def SameSlots (s t : State) : Prop := SameSlotsBut [] s t

/-- NR and BUFSZ are unchanged, and so are the host's record and the edges to come. -/
def SameOutside (s t : State) : Prop :=
  t.config = s.config ∧ t.sent = s.sent ∧ t.draw = s.draw ∧ t.pins = s.pins

/-- Nothing but the response is changed. -/
def SameButRsp (s t : State) : Prop :=
  SameErrorRegs s t ∧ SameStaging s t ∧ SameChainRegs s t ∧ SameKeyBuf s t ∧ SameBuf s t ∧ SameSlots s t ∧
    SameOutside s t

/-- Nothing but the error registers and the response is changed. -/
def SameButErrorRegs (s t : State) : Prop :=
  SameStaging s t ∧ SameChainRegs s t ∧ SameKeyBuf s t ∧ SameBuf s t ∧ SameSlots s t ∧ SameOutside s t

/-- `t` is `s` after the error `kind` naming `slot`, raised by a command with opcode field `op` (60_exceptions.md R290):
the error is recorded and answered, and nothing else is changed. -/
def ErrorTaken (kind : ErrorKind) (slot op : BitVec 8) (s t : State) : Prop :=
  t.err = true ∧ t.errCode = kind.code ∧ t.errSlot = slot ∧ t.errOp = op ∧
    t.rsp = some ⟨false, kind.code, 0⟩ ∧ SameButErrorRegs s t

/-! ### Well-formed states -/

/-- The table is a bijection on 0..255 (10_state.md R43). -/
def Memory.Bijection (m : Memory) : Prop :=
  (∀ x y : Byte, m.read x.toNat = m.read y.toNat → x = y) ∧ ∀ y : Byte, ∃ x : Byte, m.read x.toNat = y

/-- Two tables undo each other on every byte (40_key_schedule.md R147). -/
def Memory.Inverse (p q : Memory) : Prop :=
  ∀ x : Byte, q.read (p.read x.toNat).toNat = x ∧ p.read (q.read x.toNat).toNat = x

/-- What holds of a slot: PERM is a 256-byte memory; a VALID slot has a bijection and `PHASE < PERIOD` (10_state.md R43,
R44, R47); a slot that is not VALID reads as after reset (43_host_control.md R252). -/
structure Slot.Wf (sl : Slot) : Prop where
  perm : sl.perm.wf = true ∧ sl.perm.within 256 = true
  bijection : sl.valid = true → sl.perm.Bijection
  phase : sl.valid = true → sl.phase.toNat < sl.period.toNat
  unbuilt : sl.valid = false →
    sl.dir = .enc ∧ sl.period = 0 ∧ sl.rotStep = 0 ∧ sl.offset = 0 ∧ sl.phase = 0 ∧ sl.count = 0

/-- What every reachable state has. -/
structure State.Wf (s : State) : Prop where
  /-- NR and BUFSZ are in the ranges of 00_scope.md R7. -/
  config : s.config.Legal
  /-- KEYBUF is a 256-byte memory (20_memory.md R71). -/
  keyBuf : s.keyBuf.wf = true ∧ s.keyBuf.within 256 = true
  /-- BUF is a memory of BUFSZ bytes (20_memory.md R72). -/
  buf : s.buf.wf = true ∧ s.buf.within s.bufSize = true
  /-- `BUFLEN <= BUFSZ` (10_state.md R39). -/
  bufLen : s.bufLen.toNat ≤ s.bufSize
  slots : ∀ sl ∈ s.slots, sl.Wf
  /-- Without an error the error registers read 0 (10_state.md R34). -/
  noError : s.err = false → s.errCode = 0 ∧ s.errSlot = 0 ∧ s.errOp = 0
  /-- The stored code is that of an error the block raises (60_exceptions.md R280, R286). -/
  error : s.err = true → ∃ kind : ErrorKind, kind ≠ .ioFailure ∧ s.errCode = kind.code
  /-- A waiting response is a success, or an error or refusal that carries ERRCODE (30_encoding.md R101). -/
  rsp : ∀ r, s.rsp = some r →
    (r.ok = true ∧ r.code = 0) ∨ (r.ok = false ∧ r.code = s.errCode ∧ r.data = 0 ∧ s.err = true)

/-- The rotation law of a slot that has transformed some number `k` of bytes since its BUILD (41_rotor_transform.md
R184). -/
def Slot.RotationLaw (sl : Slot) : Prop :=
  ∃ k : Nat, sl.phase.toNat = k % sl.period.toNat ∧
    sl.offset.toNat = (sl.rotStep.toNat * (k / sl.period.toNat)) % 256 ∧ sl.count.toNat = k % 2 ^ 32

/-- Every VALID slot obeys the rotation law. -/
def State.RotationLaw (s : State) : Prop := ∀ sl ∈ s.slots, sl.valid = true → sl.RotationLaw

/-! ### Chains -/

/-- All of RUN's checks pass for direction `d` (42_chain.md R215): `1 <= CHAINLEN <= NR`, the VALID slots are exactly
`0..CHAINLEN-1`, and each of those has direction `d`. -/
def State.ChainReady (s : State) (d : Direction) : Prop :=
  1 ≤ s.chainLen.toNat ∧ s.chainLen.toNat ≤ s.nr ∧
    (∀ k < s.nr, (s.slotAt k).valid = decide (k < s.chainLen.toNat)) ∧
    ∀ k < s.chainLen.toNat, (s.slotAt k).dir = d

/-- The message: `BUF[0..BUFLEN-1]`. -/
def State.message (s : State) : List Byte := s.buf.bytesFrom 0 s.bufLen.toNat

/-- The slots of the chain in the order a RUN visits them (42_chain.md R216). -/
def State.stageSlots (s : State) (d : Direction) : List Slot := (stageOrder d s.chainLen.toNat).map s.slotAt

/-- The composition of whole-sequence transforms, the first slot of the list applied first (42_chain.md R217). -/
def composeStages : List Slot → List Byte → List Byte
  | [], xs => xs
  | sl :: sls, xs => composeStages sls (transform sl xs).1

/-- One byte through every stage, each stage advancing by one byte (20_memory.md R77). -/
def passByte : List Slot → Byte → Byte × List Slot
  | [], x => (x, [])
  | sl :: sls, x =>
    let q := passByte sls (rotorStep sl x).1
    (q.1, (rotorStep sl x).2 :: q.2)

/-- The byte-pipelined schedule: every byte through all stages before the next byte (20_memory.md R77). -/
def pipelined : List Slot → List Byte → List Byte × List Slot
  | sls, [] => ([], sls)
  | sls, x :: xs =>
    let q := pipelined (passByte sls x).2 xs
    ((passByte sls x).1 :: q.1, q.2)

/-- `d` is the Dec rotor that undoes the Enc rotor `e`, at the same place in its rotation (41_rotor_transform.md
R185). -/
def Counterpart (e d : Slot) : Prop :=
  e.dir = .enc ∧ d.dir = .dec ∧ Memory.Inverse e.perm d.perm ∧ d.period = e.period ∧ d.rotStep = e.rotStep ∧
    d.offset = e.offset ∧ d.phase = e.phase

/-- The state with the contents `m` of BUF, of which the first `n` bytes are the message. -/
def State.withMessage (s : State) (m : Memory) (n : Nat) : State := (s.withBuf m).withBufLen (BitVec.ofNat 17 n)

/-! ### Sequences of commands -/

/-- The state after these commands, each executed at once after the one before (20_memory.md R81). -/
def execAll : List Instr → State → Option State
  | [], s => some s
  | i :: is, s =>
    match exec i s with
    | .next t => execAll is t
    | .fault _ => none
    | .refused _ => none

/-- The responses to these command words, executed in order from `s`, and the state after them (20_memory.md R81,
30_encoding.md R118). -/
def serve : List Word → State → List Response × State
  | [], s => ([], s)
  | w :: ws, s =>
    match acceptCommand w s with
    | .next t =>
      match t.rsp with
      | some r => let q := serve ws (t.transfer r); (r :: q.1, q.2)
      | none => ([], t)
    | .fault _ => ([], s)
    | .refused _ => ([], s)

end Sys2Proof.Machine
end

