-- ==== Sys2Proof/Certificates/Slice0/Obligations.lean ====
section
/-! DEFINITION. The statements for the provers. -/

open Sys2Proof Sys2Proof.Machine

/-! ### Encoding -/

/-- 30_encoding.md R116, the worked encodings, assembled and decoded; the words that match no row raise
IllegalCommand. -/
def Obligations.WorkedEncodingsDecode : Prop :=
  (assemble (.build 2 1)).map (List.map encode) = some [0x07000201#32] ∧
  (assemble (.bufwr 0x0123 0x48)).map (List.map encode) = some [0x0A012348#32] ∧
  (assemble (.run 0)).map (List.map encode) = some [0x0C000000#32] ∧
  (assemble (.regrd 1 0x13)).map (List.map encode) = some [0x0E000113#32] ∧
  decode 0x07000201#32 = .ok (.build 2#8 1#2) ∧
  decode 0x0A012348#32 = .ok (.bufwr 0x0123#16 0x48#8) ∧
  decode 0x0C000000#32 = .ok (.run 0#2) ∧
  decode 0x0E000113#32 = .ok (.regrd 1#8 0x13#8) ∧
  ∀ s : State, s.err = false →
    (∃ t, acceptCommand 0x07000204#32 s = .next t ∧ ErrorTaken .illegalCommand 0#8 0x07#8 s t) ∧
    ∃ t, acceptCommand 0x10000000#32 s = .next t ∧ ErrorTaken .illegalCommand 0#8 0x10#8 s t

/-- 30_encoding.md R109 and R110: a word decodes exactly when it matches a row of the opcode map, to that row's command,
and no other row matches. -/
def Obligations.DecodeFollowsOpcodeMap : Prop :=
  ∀ w : Word,
    match decode w with
    | .ok i => ∃ r ∈ opcodeTable, r.mnemonic = i.mnemonic ∧ r.matches w = true ∧
        ∀ r' ∈ opcodeTable, r'.matches w = true → r' = r
    | .error _ => ∀ r ∈ opcodeTable, r.matches w = false

/-- 30_encoding.md R102, R103: decoding the word of any command gives the command back, every operand at every value. -/
def Obligations.DecodeOfEncode : Prop := ∀ i : Instr, decode (encode i) = .ok i

/-- 30_encoding.md R102, R103: a word that decodes is the word of the command it decodes to. -/
def Obligations.EncodeOfDecode : Prop := ∀ (w : Word) (i : Instr), decode w = .ok i → encode i = w

/-- 30_encoding.md R110: every word matches at most one row of the opcode map; a word of no row raises IllegalCommand
with ERRSLOT 0 and its opcode field; such words are those with opcode 0x10..0xFF, and those with a lower opcode and a 1
in a bit that every word of the row has 0. -/
def Obligations.UndecodableWordRaisesIllegalCommand : Prop :=
  ErrorKind.illegalCommand.code = 6 ∧
  ∀ (w : Word) (s : State),
    (∀ r ∈ opcodeTable, ∀ r' ∈ opcodeTable, r.matches w = true → r'.matches w = true → r = r') ∧
    ((∀ r ∈ opcodeTable, r.matches w = false) ↔
      0x10 ≤ (w.extractLsb' 24 8).toNat ∨
        ∃ r ∈ opcodeTable, r.pattern.extractLsb' 24 8 = w.extractLsb' 24 8 ∧
          w &&& r.mask &&& 0x00FFFFFF#32 ≠ 0) ∧
    ((∀ r ∈ opcodeTable, r.matches w = false) → s.err = false →
      ∃ t, acceptCommand w s = .next t ∧ ErrorTaken .illegalCommand 0#8 (w.extractLsb' 24 8) s t)

/-- 30_encoding.md R114: the word of each line the assembler accepts is the one its syntax table gives. -/
def Obligations.AssemblerWordsFollowSyntaxTable : Prop :=
  (assemble .nop).map (List.map encode) = some [0x00000000#32] ∧
  (assemble .reset).map (List.map encode) = some [0x0F000000#32] ∧
  (∀ idx byte, idx < 2 ^ 8 → byte < 2 ^ 8 →
    (assemble (.keywr idx byte)).map (List.map encode) =
      some [0x01000000#32 ||| BitVec.ofNat 32 (idx * 2 ^ 8) ||| BitVec.ofNat 32 byte]) ∧
  (∀ n, n < 2 ^ 9 → (assemble (.keylen n)).map (List.map encode) = some [0x02000000#32 ||| BitVec.ofNat 32 n]) ∧
  (∀ n, n < 2 ^ 8 → (assemble (.keyrd n)).map (List.map encode) = some [0x03000000#32 ||| BitVec.ofNat 32 n]) ∧
  (∀ v, v < 2 ^ 16 → (assemble (.perlo v)).map (List.map encode) = some [0x04000000#32 ||| BitVec.ofNat 32 v]) ∧
  (∀ v, v < 2 ^ 16 → (assemble (.perhi v)).map (List.map encode) = some [0x05000000#32 ||| BitVec.ofNat 32 v]) ∧
  (∀ v, v < 2 ^ 8 → (assemble (.step v)).map (List.map encode) = some [0x06000000#32 ||| BitVec.ofNat 32 v]) ∧
  (∀ slot dir, slot < 2 ^ 8 → dir < 2 ^ 2 →
    (assemble (.build slot dir)).map (List.map encode) =
      some [0x07000000#32 ||| BitVec.ofNat 32 (slot * 2 ^ 8) ||| BitVec.ofNat 32 dir]) ∧
  (∀ n, n < 2 ^ 9 → (assemble (.chlen n)).map (List.map encode) = some [0x08000000#32 ||| BitVec.ofNat 32 n]) ∧
  (∀ n, n < 2 ^ 17 → (assemble (.buflen n)).map (List.map encode) = some [0x09000000#32 ||| BitVec.ofNat 32 n]) ∧
  (∀ addr byte, addr < 2 ^ 16 → byte < 2 ^ 8 →
    (assemble (.bufwr addr byte)).map (List.map encode) =
      some [0x0A000000#32 ||| BitVec.ofNat 32 (addr * 2 ^ 8) ||| BitVec.ofNat 32 byte]) ∧
  (∀ addr, addr < 2 ^ 16 →
    (assemble (.bufrd addr)).map (List.map encode) = some [0x0B000000#32 ||| BitVec.ofNat 32 (addr * 2 ^ 8)]) ∧
  (∀ dir, dir < 2 ^ 2 → (assemble (.run dir)).map (List.map encode) = some [0x0C000000#32 ||| BitVec.ofNat 32 dir]) ∧
  (∀ slot idx, slot < 2 ^ 8 → idx < 2 ^ 8 →
    (assemble (.permrd slot idx)).map (List.map encode) =
      some [0x0D000000#32 ||| BitVec.ofNat 32 (slot * 2 ^ 8) ||| BitVec.ofNat 32 idx]) ∧
  (∀ slot sel, slot < 2 ^ 8 → sel < 2 ^ 8 →
    (assemble (.regrd slot sel)).map (List.map encode) =
      some [0x0E000000#32 ||| BitVec.ofNat 32 (slot * 2 ^ 8) ||| BitVec.ofNat 32 sel])

/-- 30_encoding.md R115: SETPERIOD leaves `PERIOD = n mod 2^32`, which BUILD accepts exactly when `1 <= n < 2^31`. -/
def Obligations.SetPeriodStagesWholePeriod : Prop :=
  ∀ (n : Int) (s : State), s.err = false → -(2 ^ 31) ≤ n → n < 2 ^ 32 →
    ∃ is t, assemble (.setPeriod n) = some is ∧ execAll is s = some t ∧
      (t.period.toNat : Int) = n % 2 ^ 32 ∧ (legalPeriod t.period = true ↔ 1 ≤ n ∧ n < 2 ^ 31) ∧
      t.keyLen = s.keyLen ∧ t.rotStep = s.rotStep ∧ SameErrorRegs s t ∧ SameChainRegs s t ∧ SameKeyBuf s t ∧
      SameBuf s t ∧ SameSlots s t ∧ SameOutside s t

/-- 30_encoding.md R115: LOADKEY leaves the first 256 bytes of the key in KEYBUF and `KEYLEN = min(L, 256)`; the bytes
of KEYBUF past the key read as before. -/
def Obligations.LoadKeyStagesKey : Prop :=
  ∀ (bytes : List Nat) (s : State), s.err = false → s.keyBuf.wf = true → (∀ b ∈ bytes, b < 256) →
    ∃ is t, assemble (.loadKey bytes) = some is ∧ execAll is s = some t ∧
      t.keyLen.toNat = min bytes.length 256 ∧
      (∀ a, t.keyBuf.read a =
        if a < min bytes.length 256 then BitVec.ofNat 8 (bytes.getD a 0) else s.keyBuf.read a) ∧
      t.period = s.period ∧ t.rotStep = s.rotStep ∧ SameErrorRegs s t ∧ SameChainRegs s t ∧
      SameBuf s t ∧ SameSlots s t ∧ SameOutside s t

/-! ### The port and the step -/

/-- 30_encoding.md R118: at an edge with `rst_n` high, the block idle and a command offered that decodes to `i`, the step
is `exec i`, after the edge's draw is taken and its sample consumed; and `withFetchWord` offers exactly that word. -/
def Obligations.StepRunsDecodedCommand : Prop :=
  (∀ (s : State) (p : PortInput) (ps : List PortInput) (i : Instr),
    s.pins = p :: ps → p.rstN = true → s.rsp = none → p.cmdValid = true → decode p.cmdData = .ok i →
    step s = exec i (s.withEdge p.draw ps)) ∧
  ∀ (s : State) (w : Word) (i : Instr), decode w = .ok i → s.rsp = none →
    step (s.withFetchWord 32 w.toNat) = exec i s

/-- 30_encoding.md R118: a response is held unchanged, and no command is accepted, until an edge at which the host is
ready; that edge transfers it and leaves the block idle. Without an offer an idle block keeps its state. -/
def Obligations.ResponseIsHeldUntilTaken : Prop :=
  ∀ (s : State) (p : PortInput) (ps : List PortInput), s.pins = p :: ps → p.rstN = true →
    (∀ r, s.rsp = some r → s.cmdReady p.rstN = false ∧ s.rspValid p.rstN = true ∧
      (p.rspReady = false → step s = .next (s.withEdge p.draw ps)) ∧
      (p.rspReady = true → ∃ t, step s = .next t ∧ t.rsp = none ∧ t.cmdReady true = true ∧ t.sent = s.sent ++ [r] ∧
        SameErrorRegs s t ∧ SameStaging s t ∧ SameChainRegs s t ∧ SameKeyBuf s t ∧ SameBuf s t ∧ SameSlots s t ∧
        t.config = s.config)) ∧
    (s.rsp = none → s.cmdReady p.rstN = true ∧ s.rspValid p.rstN = false ∧
      (p.cmdValid = false → step s = .next (s.withEdge p.draw ps)))

/-- 60_exceptions.md R302: an idle block at an edge at which no command is offered waits with all state kept. -/
def Obligations.IdleBlockKeepsItsState : Prop :=
  ∀ (s : State) (p : PortInput) (ps : List PortInput), s.pins = p :: ps → p.rstN = true → s.rsp = none →
    p.cmdValid = false →
    ∃ t, step s = .next t ∧ t.rsp = none ∧ t.sent = s.sent ∧ t.config = s.config ∧ t.pins = ps ∧ SameErrorRegs s t ∧
      SameStaging s t ∧ SameChainRegs s t ∧ SameKeyBuf s t ∧ SameBuf s t ∧ SameSlots s t

/-- 70_reset_and_hazards.md R320, R322, R323, values in 10_state.md R53: `rst_n` low at an edge resets the whole block,
whatever it is doing, to the drawn memory contents; a response not transferred is never transferred; cmd_ready and
rsp_valid are 0 while `rst_n` is low, and after it the block is idle. -/
def Obligations.ResetPinResetsWholeBlock : Prop :=
  ∀ (s : State) (p : PortInput) (ps : List PortInput), s.pins = p :: ps → p.rstN = false →
    s.cmdReady p.rstN = false ∧ s.rspValid p.rstN = false ∧
    ∃ t, step s = .next t ∧ t.rsp = none ∧ t.cmdReady true = true ∧ t.sent = s.sent ∧ t.config = s.config ∧
      t.err = false ∧ t.errCode = 0 ∧ t.errSlot = 0 ∧ t.errOp = 0 ∧ t.keyLen = 0 ∧ t.period = 0 ∧ t.rotStep = 0 ∧
      t.chainLen = 0 ∧ t.bufLen = 0 ∧
      (∀ k < s.nr, (t.slotAt k).valid = false ∧ (t.slotAt k).dir = .enc ∧ (t.slotAt k).period = 0 ∧
        (t.slotAt k).rotStep = 0 ∧ (t.slotAt k).offset = 0 ∧ (t.slotAt k).phase = 0 ∧ (t.slotAt k).count = 0 ∧
        ∀ i < 256, (t.slotAt k).perm.read i = (p.draw.perms.getD k []).getD i 0) ∧
      (∀ i < 256, t.keyBuf.read i = p.draw.keyBuf.getD i 0) ∧
      ∀ a < s.bufSize, t.buf.read a = p.draw.buf.getD a 0

/-- 70_reset_and_hazards.md R343, R344: the machine never stops; every edge has a next state, and an accepted command
has its response. Where the host's list of edges has run out (the model's own choice, log entry 1) the state stays. -/
def Obligations.EveryEdgeHasNextState : Prop :=
  (∀ s : State, ∃ t, step s = .next t ∧ (s.pins = [] → t = s) ∧ ∀ p ps, s.pins = p :: ps → t.pins = ps) ∧
  ∀ (w : Word) (s : State), ∃ t r, acceptCommand w s = .next t ∧ t.rsp = some r

/-- 30_encoding.md R118, 20_memory.md R81: a host that offers words one after another and takes each response has them
all executed in order, one response each, and the block is idle again. The host's schedule, and that it takes two edges a
word, are the model's choice (log entries 1 and 2). -/
def Obligations.HostIsServedInOrder : Prop :=
  ∀ (s : State) (ws : List Word) (d : MemoryDraw), s.rsp = none → s.pins = hostSends d ws →
    ∃ t, Host.Core.run Sys2Proof.core (2 * ws.length) s = .next t ∧ t.rsp = none ∧ t.pins = [] ∧
      (serve ws (s.withEdge d [])).1.length = ws.length ∧
      t.sent = s.sent ++ (serve ws (s.withEdge d [])).1 ∧
      t = (serve ws (s.withEdge d [])).2.withEdge t.draw []

/-! ### Reset and invariants -/

/-- 70_reset_and_hazards.md R323: the state after reset. -/
def Obligations.StateAfterReset : Prop :=
  State.reset.cmdReady true = true ∧ State.reset.err = false ∧
  (∀ sl ∈ State.reset.slots, sl.valid = false) ∧ State.reset.chainLen = 0 ∧ State.reset.bufLen = 0 ∧
  State.reset.keyLen = 0 ∧ State.reset.period = 0 ∧ State.reset.rotStep = 0

/-- The reset state is well formed, and the rotation law holds there. Its configuration and its zero memories are the
model's choice (log entries 4 and 5). -/
def Obligations.ResetIsWellFormed : Prop := State.reset.Wf ∧ State.reset.RotationLaw

/-- Every step keeps a well-formed state well formed: canonical memories of their sizes, `BUFLEN <= BUFSZ`, VALID slots
with a bijection and `PHASE < PERIOD`, error registers and response in agreement (10_state.md R34, R39, R43, R44, R47;
30_encoding.md R101). -/
def Obligations.StepKeepsWellFormed : Prop := ∀ s t : State, s.Wf → step s = .next t → t.Wf

/-- 41_rotor_transform.md R184: every step keeps the rotation law of every VALID slot. -/
def Obligations.StepKeepsRotationLaw : Prop :=
  ∀ s t : State, s.Wf → s.RotationLaw → step s = .next t → t.RotationLaw

/-- 00_scope.md R7: NR and BUFSZ are fixed for the life of an instance; the host's record only grows. -/
def Obligations.StepKeepsInstance : Prop :=
  ∀ s t : State, step s = .next t → t.config = s.config ∧ ∃ rs, t.sent = s.sent ++ rs

/-! ### Staging commands -/

/-- 40_key_schedule.md R140: KEYWR stores its byte at its index and changes nothing else. -/
def Obligations.KeywrStoresOneKeyByte : Prop :=
  ∀ (idx byte : BitVec 8) (s : State), s.err = false → s.keyBuf.wf = true →
    ∃ t, exec (.keywr idx byte) s = .next t ∧ t.rsp = some ⟨true, 0, 0⟩ ∧
      (∀ a, t.keyBuf.read a = if a = idx.toNat then byte else s.keyBuf.read a) ∧
      SameErrorRegs s t ∧ SameStaging s t ∧ SameChainRegs s t ∧ SameBuf s t ∧ SameSlots s t ∧ SameOutside s t

/-- 40_key_schedule.md R142: KEYRD answers the byte at its index and changes nothing. -/
def Obligations.KeyrdAnswersKeyByte : Prop :=
  ∀ (v8 : BitVec 8) (s : State), s.err = false →
    ∃ t, exec (.keyrd v8) s = .next t ∧ SameButRsp s t ∧
      ∃ r, t.rsp = some r ∧ r.ok = true ∧ r.code = 0 ∧ r.data.toNat = (s.keyBuf.read v8.toNat).toNat

/-- 40_key_schedule.md R141 and R145, 42_chain.md R210: KEYLEN, STEP and CHLEN store their field exactly, whatever its
value, and change nothing else. -/
def Obligations.KeylenStepChlenStoreTheirField : Prop :=
  (∀ (v9 : BitVec 9) (s : State), s.err = false →
    ∃ t, exec (.keylen v9) s = .next t ∧ t.rsp = some ⟨true, 0, 0⟩ ∧ t.keyLen = v9 ∧ t.period = s.period ∧
      t.rotStep = s.rotStep ∧ SameErrorRegs s t ∧ SameChainRegs s t ∧ SameKeyBuf s t ∧ SameBuf s t ∧ SameSlots s t ∧
      SameOutside s t) ∧
  (∀ (v8 : BitVec 8) (s : State), s.err = false →
    ∃ t, exec (.step v8) s = .next t ∧ t.rsp = some ⟨true, 0, 0⟩ ∧ t.rotStep = v8 ∧ t.keyLen = s.keyLen ∧
      t.period = s.period ∧ SameErrorRegs s t ∧ SameChainRegs s t ∧ SameKeyBuf s t ∧ SameBuf s t ∧ SameSlots s t ∧
      SameOutside s t) ∧
  ∀ (v9 : BitVec 9) (s : State), s.err = false →
    ∃ t, exec (.chlen v9) s = .next t ∧ t.rsp = some ⟨true, 0, 0⟩ ∧ t.chainLen = v9 ∧ t.bufLen = s.bufLen ∧
      SameErrorRegs s t ∧ SameStaging s t ∧ SameKeyBuf s t ∧ SameBuf s t ∧ SameSlots s t ∧ SameOutside s t

/-- 40_key_schedule.md R143 and R144, 30_encoding.md R106: PERLO and PERHI each replace their own half of PERIOD and keep
the other, and change nothing else. -/
def Obligations.PeriodHalvesAreWrittenSeparately : Prop :=
  (∀ (v16 : BitVec 16) (s : State), s.err = false →
    ∃ t, exec (.perlo v16) s = .next t ∧ t.rsp = some ⟨true, 0, 0⟩ ∧
      t.period.extractLsb' 0 16 = v16 ∧ t.period.extractLsb' 16 16 = s.period.extractLsb' 16 16 ∧
      t.keyLen = s.keyLen ∧ t.rotStep = s.rotStep ∧ SameErrorRegs s t ∧ SameChainRegs s t ∧ SameKeyBuf s t ∧
      SameBuf s t ∧ SameSlots s t ∧ SameOutside s t) ∧
  ∀ (v16 : BitVec 16) (s : State), s.err = false →
    ∃ t, exec (.perhi v16) s = .next t ∧ t.rsp = some ⟨true, 0, 0⟩ ∧
      t.period.extractLsb' 16 16 = v16 ∧ t.period.extractLsb' 0 16 = s.period.extractLsb' 0 16 ∧
      t.keyLen = s.keyLen ∧ t.rotStep = s.rotStep ∧ SameErrorRegs s t ∧ SameChainRegs s t ∧ SameKeyBuf s t ∧
      SameBuf s t ∧ SameSlots s t ∧ SameOutside s t

/-! ### Key schedule and BUILD -/

/-- 40_key_schedule.md R148: for a key of 1 to 256 bytes the schedule and its inverse contain each byte value exactly
once. -/
def Obligations.KeyScheduleIsBijection : Prop :=
  ∀ K : List Byte, 1 ≤ K.length → K.length ≤ 256 →
    ∀ v : Byte, (keySchedule K).count v = 1 ∧ (inverseTable (keySchedule K)).count v = 1

/-- 40_key_schedule.md R146: the key schedule is the table `S 256` of the recurrence in which `S 0` is the identity,
`j 0 = 0`, and for `i = 0..255` in order `j (i+1) = (j i + S i [i] + K[i mod L]) mod 256` and `S (i+1)` is `S i` with
entries `i` and `j (i+1)` swapped. The recurrence fixes `j` and the 256 entries of each `S i`. -/
def Obligations.KeyScheduleFollowsRecurrence : Prop :=
  ∀ K : List Byte, 1 ≤ K.length → K.length ≤ 256 →
    ∃ (S : Nat → Nat → Nat) (j : Nat → Nat),
      (∀ a < 256, S 0 a = a) ∧ j 0 = 0 ∧
      (∀ i < 256, j (i + 1) = (j i + S i i + (K.getD (i % K.length) 0).toNat) % 256) ∧
      (∀ i < 256, S (i + 1) i = S i (j (i + 1)) ∧ S (i + 1) (j (i + 1)) = S i i ∧
        ∀ a < 256, a ≠ i → a ≠ j (i + 1) → S (i + 1) a = S i a) ∧
      (keySchedule K).length = 256 ∧ ∀ a < 256, ((keySchedule K).getD a 0).toNat = S 256 a

/-- 40_key_schedule.md R147: the Decrypt table is the full inverse over all 256 indices, both ways. -/
def Obligations.DecryptTableInvertsEncryptTable : Prop :=
  ∀ K : List Byte, ∀ x : Byte,
    (inverseTable (keySchedule K)).getD ((keySchedule K).getD x.toNat 0).toNat 0 = x ∧
    (keySchedule K).getD ((inverseTable (keySchedule K)).getD x.toNat 0).toNat 0 = x

/-- 40_key_schedule.md R149, R150, R152, R153: a BUILD that passes its checks writes every field of its slot, whatever it
held, the table that of the key `K = KEYBUF[0..L-1]` with `L = min(KEYLEN, 256)`, and leaves the staging registers, the
buffers and every other slot alone. The tables are those of KeyScheduleFollowsRecurrence and
DecryptTableInvertsEncryptTable. -/
def Obligations.BuildConstructsRotor : Prop :=
  ∀ (slot : BitVec 8) (dir : BitVec 2) (s : State) (K : List Byte), s.err = false → slot.toNat < s.nr →
    dir.toNat ≤ 1 → s.keyLen ≠ 0 → 0 < s.period.toInt →
    K.length = min s.keyLen.toNat 256 → (∀ i < K.length, K[i]? = some (s.keyBuf.read i)) →
    ∃ t, exec (.build slot dir) s = .next t ∧ t.rsp = some ⟨true, 0, 0⟩ ∧
      (t.slotAt slot.toNat).valid = true ∧
      (t.slotAt slot.toNat).dir = (if dir = 0 then .enc else .dec) ∧
      (∀ i < 256, (t.slotAt slot.toNat).perm.read i =
        (if dir = 0 then keySchedule K else inverseTable (keySchedule K)).getD i 0) ∧
      (t.slotAt slot.toNat).period.toNat = s.period.toNat ∧ (t.slotAt slot.toNat).rotStep = s.rotStep ∧
      (t.slotAt slot.toNat).offset = 0 ∧ (t.slotAt slot.toNat).phase = 0 ∧ (t.slotAt slot.toNat).count = 0 ∧
      SameErrorRegs s t ∧ SameStaging s t ∧ SameChainRegs s t ∧ SameKeyBuf s t ∧ SameBuf s t ∧
      SameSlotsBut [slot.toNat] s t ∧ SameOutside s t

/-- 40_key_schedule.md R150, 60_exceptions.md R281 to R283, R288: BUILD's four errors, in their order; each records the
slot and opcode 0x07 and changes nothing else. -/
def Obligations.BuildErrorsInOrder : Prop :=
  (ErrorKind.outOfRange.code = 7 ∧ ErrorKind.invalidDirection.code = 3 ∧ ErrorKind.invalidKeyPhrase.code = 1 ∧
    ErrorKind.invalidRotationPeriod.code = 2) ∧
  ∀ (slot : BitVec 8) (dir : BitVec 2) (s : State), s.err = false →
    (s.nr ≤ slot.toNat →
      ∃ t, exec (.build slot dir) s = .next t ∧ ErrorTaken .outOfRange slot 0x07#8 s t) ∧
    (slot.toNat < s.nr → 1 < dir.toNat →
      ∃ t, exec (.build slot dir) s = .next t ∧ ErrorTaken .invalidDirection slot 0x07#8 s t) ∧
    (slot.toNat < s.nr → dir.toNat ≤ 1 → s.keyLen = 0 →
      ∃ t, exec (.build slot dir) s = .next t ∧ ErrorTaken .invalidKeyPhrase slot 0x07#8 s t) ∧
    (slot.toNat < s.nr → dir.toNat ≤ 1 → s.keyLen ≠ 0 → s.period.toInt ≤ 0 →
      ∃ t, exec (.build slot dir) s = .next t ∧ ErrorTaken .invalidRotationPeriod slot 0x07#8 s t)

/-- 40_key_schedule.md R149, R151: what BUILD constructs depends only on the direction, `min(KEYLEN, 256)`, the key bytes
below it, PERIOD and STEP. -/
def Obligations.BuildReadsOnlyStagedKey : Prop :=
  ∀ (slot slot' : BitVec 8) (dir : BitVec 2) (s s' t t' : State),
    s.err = false → s'.err = false → slot.toNat < s.nr → slot'.toNat < s'.nr →
    min s.keyLen.toNat 256 = min s'.keyLen.toNat 256 → s.period = s'.period → s.rotStep = s'.rotStep →
    (∀ a < min s.keyLen.toNat 256, s.keyBuf.read a = s'.keyBuf.read a) →
    dir.toNat ≤ 1 → s.keyLen ≠ 0 → 0 < s.period.toInt →
    exec (.build slot dir) s = .next t → exec (.build slot' dir) s' = .next t' →
    t.slotAt slot.toNat = t'.slotAt slot'.toNat ∧
    (t.slotAt slot.toNat).offset = 0 ∧ (t.slotAt slot.toNat).phase = 0 ∧ (t.slotAt slot.toNat).count = 0

/-! ### The rotor -/

/-- 41_rotor_transform.md R184: after `k` bytes since its BUILD a slot has `PHASE = k mod PERIOD`,
`OFFSET = (STEP * floor(k / PERIOD)) mod 256` and `COUNT = k mod 2^32`, and byte number `k` uses that offset; whatever the
bytes are. -/
def Obligations.RotationClosedForm : Prop :=
  ∀ (s : State) (d : Direction) (xs : List Byte), 0 < s.period.toInt →
    (transform (s.builtSlot d) xs).2.phase.toNat = xs.length % s.period.toNat ∧
    (transform (s.builtSlot d) xs).2.offset.toNat = (s.rotStep.toNat * (xs.length / s.period.toNat)) % 256 ∧
    (transform (s.builtSlot d) xs).2.count.toNat = xs.length % 2 ^ 32 ∧
    (transform (s.builtSlot d) xs).1.length = xs.length ∧
    ∀ (k : Nat) (x : Byte), xs[k]? = some x → (transform (s.builtSlot d) xs).1[k]? =
      some (match d with
        | .enc => (s.builtSlot d).perm.read
            ((x.toNat + s.rotStep.toNat * (k / s.period.toNat) % 256) % 256)
        | .dec => BitVec.ofInt 8 ((((s.builtSlot d).perm.read x.toNat).toNat : Int) -
            (s.rotStep.toNat * (k / s.period.toNat) % 256 : Nat)))

/-- 41_rotor_transform.md R187: a rotation event, which adds STEP to OFFSET, comes after bytes number PERIOD-1,
2*PERIOD-1, ... since the BUILD and after no other. -/
def Obligations.OffsetMovesOncePerPeriod : Prop :=
  ∀ (s : State) (d : Direction) (xs : List Byte) (x : Byte), 0 < s.period.toInt →
    (transform (s.builtSlot d) (xs ++ [x])).2.offset =
      if (xs.length + 1) % s.period.toNat = 0 then (transform (s.builtSlot d) xs).2.offset + s.rotStep
      else (transform (s.builtSlot d) xs).2.offset

/-- 41_rotor_transform.md R185: an Enc and a Dec rotor built from the same staging undo each other: after any equal
number of bytes on the next byte, and on whole sequences. -/
def Obligations.DecryptRotorUndoesEncryptRotor : Prop :=
  ∀ s : State,
    (∀ (xs ys : List Byte) (x : Byte), xs.length = ys.length →
      (rotorStep (transform (s.builtSlot .dec) ys).2 (rotorStep (transform (s.builtSlot .enc) xs).2 x).1).1 = x) ∧
    ∀ xs : List Byte, (transform (s.builtSlot .dec) (transform (s.builtSlot .enc) xs).1).1 = xs

/-! ### Chain and buffer -/

/-- 42_chain.md R211, 10_state.md R39: BUFLEN stores a length up to BUFSZ and raises OutOfRange above it. -/
def Obligations.BuflenChecksBufferSize : Prop :=
  ∀ (v17 : BitVec 17) (s : State), s.err = false →
    (v17.toNat ≤ s.bufSize → ∃ t, exec (.buflen v17) s = .next t ∧ t.rsp = some ⟨true, 0, 0⟩ ∧ t.bufLen = v17 ∧
      t.chainLen = s.chainLen ∧ SameErrorRegs s t ∧ SameStaging s t ∧ SameKeyBuf s t ∧ SameBuf s t ∧ SameSlots s t ∧
      SameOutside s t) ∧
    (s.bufSize < v17.toNat → ∃ t, exec (.buflen v17) s = .next t ∧ ErrorTaken .outOfRange 0#8 0x09#8 s t)

/-- 42_chain.md R212, 20_memory.md R72: BUFWR stores its byte at an address below BUFSZ and raises OutOfRange at any
other. -/
def Obligations.BufwrStoresOneByte : Prop :=
  ∀ (addr : BitVec 16) (byte : BitVec 8) (s : State), s.err = false → s.buf.wf = true →
    (addr.toNat < s.bufSize → ∃ t, exec (.bufwr addr byte) s = .next t ∧ t.rsp = some ⟨true, 0, 0⟩ ∧
      (∀ a, t.buf.read a = if a = addr.toNat then byte else s.buf.read a) ∧
      SameErrorRegs s t ∧ SameStaging s t ∧ SameChainRegs s t ∧ SameKeyBuf s t ∧ SameSlots s t ∧ SameOutside s t) ∧
    (s.bufSize ≤ addr.toNat → ∃ t, exec (.bufwr addr byte) s = .next t ∧ ErrorTaken .outOfRange 0#8 0x0A#8 s t)

/-- 42_chain.md R213, 20_memory.md R72: BUFRD answers the byte at an address below BUFSZ and changes nothing, and raises
OutOfRange at any other. -/
def Obligations.BufrdAnswersOneByte : Prop :=
  ∀ (addr : BitVec 16) (s : State), s.err = false →
    (addr.toNat < s.bufSize → ∃ t, exec (.bufrd addr) s = .next t ∧ SameButRsp s t ∧
      ∃ r, t.rsp = some r ∧ r.ok = true ∧ r.code = 0 ∧ r.data.toNat = (s.buf.read addr.toNat).toNat) ∧
    (s.bufSize ≤ addr.toNat → ∃ t, exec (.bufrd addr) s = .next t ∧ ErrorTaken .outOfRange 0#8 0x0B#8 s t)

/-- 42_chain.md R215, 60_exceptions.md R283, R284, R288: RUN's errors in their order, each naming the lowest failing slot
or 0, and changing nothing but the error registers and the response. -/
def Obligations.RunErrorsInOrder : Prop :=
  (ErrorKind.invalidDirection.code = 3 ∧ ErrorKind.chainLengthMismatch.code = 4) ∧
  ∀ (dir : BitVec 2) (s : State), s.err = false → s.nr ≤ 256 →
    (1 < dir.toNat → ∃ t, exec (.run dir) s = .next t ∧ ErrorTaken .invalidDirection 0#8 0x0C#8 s t) ∧
    (dir.toNat ≤ 1 → (s.chainLen.toNat = 0 ∨ s.nr < s.chainLen.toNat) →
      ∃ t, exec (.run dir) s = .next t ∧ ErrorTaken .chainLengthMismatch 0#8 0x0C#8 s t) ∧
    (dir.toNat ≤ 1 → 1 ≤ s.chainLen.toNat → s.chainLen.toNat ≤ s.nr →
      (∀ k < s.nr, (s.slotAt k).valid ≠ decide (k < s.chainLen.toNat) →
        (∀ j < k, (s.slotAt j).valid = decide (j < s.chainLen.toNat)) →
        ∃ t, exec (.run dir) s = .next t ∧ ErrorTaken .chainLengthMismatch (BitVec.ofNat 8 k) 0x0C#8 s t) ∧
      ((∀ k < s.nr, (s.slotAt k).valid = decide (k < s.chainLen.toNat)) →
        ∀ k < s.chainLen.toNat, (s.slotAt k).dir ≠ (if dir = 0 then .enc else .dec) →
          (∀ j < k, (s.slotAt j).dir = (if dir = 0 then .enc else .dec)) →
          ∃ t, exec (.run dir) s = .next t ∧ ErrorTaken .invalidDirection (BitVec.ofNat 8 k) 0x0C#8 s t))

/-- 42_chain.md R214, R216, R217, R221: a RUN whose checks pass leaves in `BUF[0..BUFLEN-1]` the composition of the chain
slots' transforms, slot 0 first to encrypt and slot CHAINLEN-1 first to decrypt; each chain slot is advanced by BUFLEN
bytes; nothing else is changed. -/
def Obligations.RunComposesStages : Prop :=
  ∀ (dir : BitVec 2) (d : Direction) (s : State), s.err = false → dirOperand dir = some d → s.ChainReady d →
    s.buf.wf = true →
    ∃ t, exec (.run dir) s = .next t ∧ t.rsp = some ⟨true, 0, 0⟩ ∧
      t.message = composeStages
        (match d with
          | .enc => (List.range s.chainLen.toNat).map s.slotAt
          | .dec => ((List.range s.chainLen.toNat).map s.slotAt).reverse) s.message ∧
      (∀ a, s.bufLen.toNat ≤ a → t.buf.read a = s.buf.read a) ∧
      (∀ k < s.chainLen.toNat, t.slotAt k = (transform (s.slotAt k) s.message).2) ∧
      (∀ k, s.chainLen.toNat ≤ k → t.slotAt k = s.slotAt k) ∧
      SameErrorRegs s t ∧ SameStaging s t ∧ SameChainRegs s t ∧ SameKeyBuf s t ∧ SameOutside s t

/-- 42_chain.md R221: RUN never changes PERM, DIR, PERIOD, STEP or VALID of any slot, a slot at or above CHAINLEN, the
staging registers, CHAINLEN, BUFLEN, KEYBUF, or a byte of BUF at or above BUFLEN; whether it succeeds or not. -/
def Obligations.RunFrame : Prop :=
  ∀ (dir : BitVec 2) (s t : State), s.buf.wf = true → exec (.run dir) s = .next t →
    (∀ k, (t.slotAt k).perm = (s.slotAt k).perm ∧ (t.slotAt k).dir = (s.slotAt k).dir ∧
      (t.slotAt k).period = (s.slotAt k).period ∧ (t.slotAt k).rotStep = (s.slotAt k).rotStep ∧
      (t.slotAt k).valid = (s.slotAt k).valid) ∧
    (∀ k, s.chainLen.toNat ≤ k → t.slotAt k = s.slotAt k) ∧
    (∀ a, s.bufLen.toNat ≤ a → t.buf.read a = s.buf.read a) ∧
    SameStaging s t ∧ SameChainRegs s t ∧ SameKeyBuf s t ∧ SameOutside s t

/-- 42_chain.md R219: with `BUFLEN = 0` a RUN that passes its checks changes nothing and responds ok; one that fails them
raises its error all the same. -/
def Obligations.EmptyRunChangesNothing : Prop :=
  ∀ (dir : BitVec 2) (s : State), s.err = false → s.bufLen = 0 →
    (∀ d, s.checkChain dir = .ok d → ∃ t, exec (.run dir) s = .next t ∧ t.rsp = some ⟨true, 0, 0⟩ ∧ SameButRsp s t) ∧
    ∀ e, s.checkChain dir = .error e →
      ∃ t, exec (.run dir) s = .next t ∧ ErrorTaken e.1 e.2 0x0C#8 s t

/-- 42_chain.md R220: RUNs over two chunks, each loaded into `BUF[0..]` with its own BUFLEN, complete and give the bytes of
one RUN over their concatenation, and leave the same slots; whatever else BUF holds at each RUN. -/
def Obligations.ChunkedRunsEqualOneRun : Prop :=
  ∀ (dir : BitVec 2) (d : Direction) (s : State) (c₁ c₂ : List Byte) (m m₁ m₂ : Memory), s.err = false →
    dirOperand dir = some d → s.ChainReady d → s.bufSize ≤ 65536 → (c₁ ++ c₂).length ≤ s.bufSize →
    m.wf = true → m₁.wf = true → m₂.wf = true → m.bytesFrom 0 (c₁ ++ c₂).length = c₁ ++ c₂ →
    m₁.bytesFrom 0 c₁.length = c₁ → m₂.bytesFrom 0 c₂.length = c₂ →
    ∃ t t₁ t₂, exec (.run dir) (s.withMessage m (c₁ ++ c₂).length) = .next t ∧ t.rsp = some ⟨true, 0, 0⟩ ∧
      exec (.run dir) (s.withMessage m₁ c₁.length) = .next t₁ ∧ t₁.rsp = some ⟨true, 0, 0⟩ ∧
      exec (.run dir) (t₁.withMessage m₂ c₂.length) = .next t₂ ∧ t₂.rsp = some ⟨true, 0, 0⟩ ∧
      t.message = t₁.message ++ t₂.message ∧ t.slots = t₂.slots

/-- 42_chain.md R218: an Encrypt RUN and then a Decrypt RUN through the counterparts of its slots complete, give the
message back, and leave the slots counterparts again; rotors built Enc and Dec from one staging are counterparts. -/
def Obligations.DecryptRunUndoesEncryptRun : Prop :=
  (∀ g : State, Counterpart (g.builtSlot .enc) (g.builtSlot .dec)) ∧
  ∀ s u : State, s.err = false → u.err = false → s.ChainReady .enc → u.ChainReady .dec →
    s.buf.wf = true → u.buf.wf = true → u.chainLen = s.chainLen → u.bufLen = s.bufLen →
    (∀ k < s.chainLen.toNat, Counterpart (s.slotAt k) (u.slotAt k)) →
    ∃ t, exec (.run 0#2) s = .next t ∧ t.rsp = some ⟨true, 0, 0⟩ ∧
      (u.message = t.message →
        ∃ v, exec (.run 1#2) u = .next v ∧ v.rsp = some ⟨true, 0, 0⟩ ∧ v.message = s.message ∧
          ∀ k < s.chainLen.toNat, Counterpart (t.slotAt k) (v.slotAt k))

/-- 20_memory.md R77, 42_chain.md R217: the byte-pipelined schedule gives the bytes and the slots of the stage-by-stage
RUN. -/
def Obligations.PipelinedScheduleEqualsStages : Prop :=
  ∀ (dir : BitVec 2) (d : Direction) (s t : State), s.err = false → dirOperand dir = some d → s.ChainReady d →
    s.buf.wf = true → exec (.run dir) s = .next t →
    t.message = (pipelined (s.stageSlots d) s.message).1 ∧
    t.stageSlots d = (pipelined (s.stageSlots d) s.message).2

/-! ### Host control -/

/-- 43_host_control.md R250: NOP responds ok in every state, the ERROR state too, and changes nothing. -/
def Obligations.NopChangesNothing : Prop :=
  ∀ s : State, ∃ t, exec .nop s = .next t ∧ t.rsp = some ⟨true, 0, 0⟩ ∧ SameButRsp s t

/-- 43_host_control.md R251: PERMRD answers an entry of a slot below NR, VALID or not, and changes nothing; at or above NR
it raises OutOfRange naming the slot. -/
def Obligations.PermrdAnswersTableEntry : Prop :=
  ∀ (slot i8 : BitVec 8) (s : State), s.err = false →
    (slot.toNat < s.nr → ∃ t, exec (.permrd slot i8) s = .next t ∧ SameButRsp s t ∧
      ∃ r, t.rsp = some r ∧ r.ok = true ∧ r.code = 0 ∧
        r.data.toNat = ((s.slotAt slot.toNat).perm.read i8.toNat).toNat) ∧
    (s.nr ≤ slot.toNat → ∃ t, exec (.permrd slot i8) s = .next t ∧ ErrorTaken .outOfRange slot 0x0D#8 s t)

/-- 43_host_control.md R252, R253: REGRD of a global selector answers the register zero-extended, in the ERROR state too,
and changes nothing. -/
def Obligations.RegrdReadsGlobalRegisters : Prop :=
  ∀ (sel : BitVec 8) (s : State), s.config.Legal → sel.toNat ≤ 0x07 →
    ∃ t r, exec (.regrd 0#8 sel) s = .next t ∧ SameButRsp s t ∧ t.rsp = some r ∧ r.ok = true ∧ r.code = 0 ∧
      (sel = 0x00 → r.data = s.statusWord) ∧ (sel = 0x01 → r.data.toNat = s.keyLen.toNat) ∧
      (sel = 0x02 → r.data = s.period) ∧ (sel = 0x03 → r.data.toNat = s.rotStep.toNat) ∧
      (sel = 0x04 → r.data.toNat = s.chainLen.toNat) ∧ (sel = 0x05 → r.data.toNat = s.bufLen.toNat) ∧
      (sel = 0x06 → r.data.toNat = s.nr) ∧ (sel = 0x07 → r.data.toNat = s.bufSize)

/-- 43_host_control.md R252, R253: REGRD of a per-slot selector of a slot below NR answers the slot's register
zero-extended, in the ERROR state too, and changes nothing. -/
def Obligations.RegrdReadsSlotRegisters : Prop :=
  ∀ (slot sel : BitVec 8) (s : State), slot.toNat < s.nr → 0x10 ≤ sel.toNat → sel.toNat ≤ 0x15 →
    ∃ t r, exec (.regrd slot sel) s = .next t ∧ SameButRsp s t ∧ t.rsp = some r ∧ r.ok = true ∧ r.code = 0 ∧
      (sel = 0x10 → r.data.getLsbD 0 = (s.slotAt slot.toNat).valid ∧
        r.data.getLsbD 1 = decide ((s.slotAt slot.toNat).dir = .dec) ∧ r.data.toNat < 4) ∧
      (sel = 0x11 → r.data.toNat = (s.slotAt slot.toNat).period.toNat) ∧
      (sel = 0x12 → r.data.toNat = (s.slotAt slot.toNat).rotStep.toNat) ∧
      (sel = 0x13 → r.data.toNat = (s.slotAt slot.toNat).offset.toNat) ∧
      (sel = 0x14 → r.data.toNat = (s.slotAt slot.toNat).phase.toNat) ∧
      (sel = 0x15 → r.data = (s.slotAt slot.toNat).count)

/-- 43_host_control.md R252: REGRD's errors: an undefined selector, or a global one with a slot field other than 0, is
IllegalCommand naming slot 0; a per-slot one with a slot at or above NR is OutOfRange naming the slot. In the ERROR state
each is refused instead. -/
def Obligations.RegrdErrors : Prop :=
  ∀ (slot sel : BitVec 8) (s : State),
    let illegal := (sel.toNat ≤ 0x07 ∧ slot ≠ 0) ∨ (0x07 < sel.toNat ∧ sel.toNat < 0x10) ∨ 0x15 < sel.toNat
    let outside := 0x10 ≤ sel.toNat ∧ sel.toNat ≤ 0x15 ∧ s.nr ≤ slot.toNat
    (s.err = false → illegal →
      ∃ t, exec (.regrd slot sel) s = .next t ∧ ErrorTaken .illegalCommand 0#8 0x0E#8 s t) ∧
    (s.err = false → outside →
      ∃ t, exec (.regrd slot sel) s = .next t ∧ ErrorTaken .outOfRange slot 0x0E#8 s t) ∧
    (s.err = true → illegal ∨ outside →
      ∃ t, exec (.regrd slot sel) s = .next t ∧ t.rsp = some ⟨false, s.errCode, 0⟩ ∧ SameButRsp s t)

/-- 10_state.md R34: the layout of STATUS. -/
def Obligations.StatusLayout : Prop :=
  ∀ s : State, s.statusWord.getLsbD 0 = s.err ∧ s.statusWord.extractLsb' 1 3 = 0 ∧
    s.statusWord.extractLsb' 4 4 = s.errCode ∧ s.statusWord.extractLsb' 8 8 = s.errSlot ∧
    s.statusWord.extractLsb' 16 8 = s.errOp ∧ s.statusWord.extractLsb' 24 8 = 0

/-- 43_host_control.md R254, 70_reset_and_hazards.md R321, 10_state.md R53: RESET responds ok in every state, sets every
register to 0 and every memory cell to the drawn byte, and keeps NR and BUFSZ. -/
def Obligations.ResetCommandResetsBlock : Prop :=
  ∀ s : State, ∃ t, exec .reset s = .next t ∧ t.rsp = some ⟨true, 0, 0⟩ ∧ SameOutside s t ∧
    t.err = false ∧ t.errCode = 0 ∧ t.errSlot = 0 ∧ t.errOp = 0 ∧ t.keyLen = 0 ∧ t.period = 0 ∧ t.rotStep = 0 ∧
    t.chainLen = 0 ∧ t.bufLen = 0 ∧
    (∀ k < s.nr, (t.slotAt k).valid = false ∧ (t.slotAt k).dir = .enc ∧ (t.slotAt k).period = 0 ∧
      (t.slotAt k).rotStep = 0 ∧ (t.slotAt k).offset = 0 ∧ (t.slotAt k).phase = 0 ∧ (t.slotAt k).count = 0 ∧
      ∀ i < 256, (t.slotAt k).perm.read i = (s.draw.perms.getD k []).getD i 0) ∧
    (∀ i < 256, t.keyBuf.read i = s.draw.keyBuf.getD i 0) ∧
    ∀ a < s.bufSize, t.buf.read a = s.draw.buf.getD a 0

/-! ### Errors -/

/-- 60_exceptions.md R292: in the ERROR state the exact NOP and RESET words and a REGRD that would raise no error are
executed; every other word is refused: no state changes and ERRCODE is answered. -/
def Obligations.ErrorStateRefusesOtherWords : Prop :=
  ∀ (w : Word) (s : State), s.err = true →
    (w = 0x00000000#32 → ∃ t, acceptCommand w s = .next t ∧ t.rsp = some ⟨true, 0, 0⟩ ∧ SameButRsp s t) ∧
    (w = 0x0F000000#32 → ∃ t, acceptCommand w s = .next t ∧ t.rsp = some ⟨true, 0, 0⟩ ∧
      t = (s.afterReset s.draw).withRsp ⟨true, 0, 0⟩) ∧
    (∀ slot sel v, decode w = .ok (.regrd slot sel) → s.readRegister slot sel = .ok v →
      ∃ t, acceptCommand w s = .next t ∧ t.rsp = some ⟨true, 0, v⟩ ∧ SameButRsp s t) ∧
    (w ≠ 0x00000000#32 → w ≠ 0x0F000000#32 →
      (∀ slot sel, decode w = .ok (.regrd slot sel) → ∀ v, s.readRegister slot sel ≠ .ok v) →
      ∃ t, acceptCommand w s = .next t ∧ t.rsp = some ⟨false, s.errCode, 0⟩ ∧ SameButRsp s t)

/-- 60_exceptions.md R293, R294, 10_state.md R32: only a reset, by the pin or by an accepted RESET word, leaves the ERROR
state; any other step keeps ERR, ERRCODE, ERRSLOT and ERROP. -/
def Obligations.OnlyResetLeavesErrorState : Prop :=
  ∀ s t : State, s.err = true → step s = .next t →
    SameErrorRegs s t ∨
    ∃ p ps, s.pins = p :: ps ∧
      (p.rstN = false ∨ (s.rsp = none ∧ p.cmdValid = true ∧ p.cmdData = 0x0F000000#32))

/-- 60_exceptions.md R290, R291: a word answered with `ok = 0` has changed nothing but the error registers and the
response, and nothing at all but the response if ERR was already 1. -/
def Obligations.FailedCommandWritesNothing : Prop :=
  ∀ (w : Word) (s t : State) (r : Response), acceptCommand w s = .next t → t.rsp = some r → r.ok = false →
    SameButErrorRegs s t ∧ t.err = true ∧ t.errCode = r.code ∧
    (s.err = true → SameErrorRegs s t) ∧ (s.err = false → t.errOp = w.extractLsb' 24 8)

/-- 30_encoding.md R101: the response to any word: code 0 when ok, ERRCODE and data 0 when not, and data 0 for every
command that is not a read. -/
def Obligations.ResponseShape : Prop :=
  ∀ (w : Word) (s t : State), acceptCommand w s = .next t →
    ∃ r, t.rsp = some r ∧ (r.ok = true → r.code = 0) ∧ (r.ok = false → r.code = t.errCode ∧ r.data = 0) ∧
      (r.data ≠ 0 → ∃ i, decode w = .ok i ∧ (i.mnemonic = "KEYRD" ∨ i.mnemonic = "BUFRD" ∨ i.mnemonic = "PERMRD" ∨
        i.mnemonic = "REGRD"))

/-! ### Whole-machine rules -/

/-- 10_state.md R33, R40, R52, 20_memory.md R70, R80: which commands may change which state. -/
def Obligations.OnlyNamedCommandsWriteEachState : Prop :=
  ∀ (i : Instr) (s t : State), exec i s = .next t → i ≠ .reset →
    (t.keyLen ≠ s.keyLen → i.mnemonic = "KEYLEN") ∧
    (t.period ≠ s.period → i.mnemonic = "PERLO" ∨ i.mnemonic = "PERHI") ∧
    (t.rotStep ≠ s.rotStep → i.mnemonic = "STEP") ∧
    (t.chainLen ≠ s.chainLen → i.mnemonic = "CHLEN") ∧
    (t.bufLen ≠ s.bufLen → i.mnemonic = "BUFLEN") ∧
    (t.keyBuf ≠ s.keyBuf → i.mnemonic = "KEYWR") ∧
    (t.buf ≠ s.buf → i.mnemonic = "BUFWR" ∨ i.mnemonic = "RUN") ∧
    (∀ k, (t.slotAt k).valid ≠ (s.slotAt k).valid ∨ (t.slotAt k).dir ≠ (s.slotAt k).dir ∨
      (t.slotAt k).perm ≠ (s.slotAt k).perm ∨ (t.slotAt k).period ≠ (s.slotAt k).period ∨
      (t.slotAt k).rotStep ≠ (s.slotAt k).rotStep → ∃ slot dir, i = .build slot dir ∧ slot.toNat = k) ∧
    (∀ k, (t.slotAt k).offset ≠ (s.slotAt k).offset ∨ (t.slotAt k).phase ≠ (s.slotAt k).phase ∨
      (t.slotAt k).count ≠ (s.slotAt k).count →
      (∃ slot dir, i = .build slot dir ∧ slot.toNat = k) ∨ (i.mnemonic = "RUN" ∧ k < s.chainLen.toNat)) ∧
    (∀ k, (s.slotAt k).valid = true → (t.slotAt k).valid = true)

/-- 20_memory.md R78: a read command changes no state but the error registers where it fails, and a write command
repeated with the same word leaves the same state. -/
def Obligations.ReadsHaveNoEffectAndWritesRepeat : Prop :=
  (∀ (i : Instr) (s t : State), i.mnemonic = "KEYRD" ∨ i.mnemonic = "BUFRD" ∨ i.mnemonic = "PERMRD" ∨
      i.mnemonic = "REGRD" → exec i s = .next t →
    SameButErrorRegs s t ∧ ∃ r, t.rsp = some r ∧ (r.ok = true → SameButRsp s t ∧ exec i t = .next t)) ∧
  ∀ (i : Instr) (s t : State), s.keyBuf.wf = true → s.buf.wf = true →
    i.mnemonic = "KEYWR" ∨ i.mnemonic = "BUFWR" ∨ i.mnemonic = "KEYLEN" ∨ i.mnemonic = "PERLO" ∨
      i.mnemonic = "PERHI" ∨ i.mnemonic = "STEP" ∨ i.mnemonic = "CHLEN" ∨ i.mnemonic = "BUFLEN" →
    exec i s = .next t → exec i t = .next t

/-- 40_key_schedule.md R153, 10_state.md R43: a BUILD makes the table of its slot a bijection, and an Enc and a Dec BUILD
of two slots from one staging give tables that undo each other. -/
def Obligations.BuiltTablesAreInverseBijections : Prop :=
  ∀ (slot slot' : BitVec 8) (s : State), s.err = false → slot.toNat < s.nr → slot'.toNat < s.nr →
    slot ≠ slot' → s.keyLen ≠ 0 → 0 < s.period.toInt →
    ∃ t, execAll [.build slot 0#2, .build slot' 1#2] s = some t ∧
      (t.slotAt slot.toNat).perm.Bijection ∧ (t.slotAt slot'.toNat).perm.Bijection ∧
      Memory.Inverse (t.slotAt slot.toNat).perm (t.slotAt slot'.toNat).perm
end

