-- ==== Sys2Proof/Laws/Memory.lean ====
section
/-! SUPPORT. Byte memories: what a read sees after a write, that every operation keeps the canonical form and the size of
the space, and that equal contents are equal lists. -/

namespace Sys2Proof.Machine

@[simp] theorem Memory.read_nil (a : Nat) : Memory.read [] a = 0 := rfl

theorem Memory.read_pair (b : Nat) (v : Byte) (m : Memory) (a : Nat) :
    Memory.read ((b, v) :: m) a = if a = b then v else Memory.read m a := rfl

/-! ### The canonical form, taken apart -/

theorem Memory.wf_pair {a : Nat} {v : Byte} {m : Memory} :
    Memory.wf ((a, v) :: m) = true ↔ v ≠ 0 ∧ (∀ c ∈ m, a < c.1) ∧ Memory.wf m = true := by
  simp only [Memory.wf, Bool.and_eq_true, decide_eq_true_eq, List.all_eq_true, and_assoc]
  exact Iff.rfl

/-- An address below every listed one reads as unlisted. -/
theorem Memory.read_of_below {m : Memory} {a : Nat} (h : ∀ c ∈ m, a < c.1) : m.read a = 0 := by
  induction m with
  | nil => rfl
  | cons c m ih =>
    obtain ⟨b, v⟩ := c
    have hb : a < b := h (b, v) (by simp)
    rw [Memory.read_pair, if_neg (by omega)]
    exact ih fun c hc => h c (by simp [hc])

/-! ### Memory.cons -/

theorem Memory.read_cons {a : Nat} {m : Memory} (h : ∀ c ∈ m, a < c.1) (v : Byte) (x : Nat) :
    (Memory.cons a v m).read x = if x = a then v else m.read x := by
  unfold Memory.cons Memory.unlisted
  split
  · next hv =>
    subst hv
    split
    · next hx => subst hx; exact Memory.read_of_below h
    · rfl
  · exact Memory.read_pair a v m x

theorem Memory.wf_cons {a : Nat} {m : Memory} (h : ∀ c ∈ m, a < c.1) (hm : m.wf = true) (v : Byte) :
    (Memory.cons a v m).wf = true := by
  unfold Memory.cons Memory.unlisted
  split
  · exact hm
  · next hv => exact Memory.wf_pair.2 ⟨hv, h, hm⟩

theorem Memory.mem_cons {a : Nat} {v : Byte} {m : Memory} {c : Host.Cell} (h : c ∈ Memory.cons a v m) :
    c.1 = a ∨ c ∈ m := by
  unfold Memory.cons at h
  split at h
  · exact .inr h
  · rcases List.mem_cons.1 h with rfl | h
    · exact .inl rfl
    · exact .inr h

/-! ### Memory.write -/

/-- Every address listed after a write was listed before or is the address written. -/
theorem Memory.mem_write {m : Memory} {a : Nat} {v : Byte} {c : Host.Cell} (h : c ∈ m.write a v) :
    c.1 = a ∨ c ∈ m := by
  induction m with
  | nil => exact Memory.mem_cons h
  | cons d m ih =>
    obtain ⟨b, w⟩ := d
    simp only [Memory.write] at h
    split at h
    · exact Memory.mem_cons h
    · split at h
      · exact (Memory.mem_cons h).imp_right (List.mem_cons_of_mem _)
      · rcases List.mem_cons.1 h with rfl | h
        · exact .inr (by simp)
        · exact (ih h).imp_right (List.mem_cons_of_mem _)

/-- A write keeps the canonical form. -/
theorem Memory.wf_write {m : Memory} (hm : m.wf = true) (a : Nat) (v : Byte) : (m.write a v).wf = true := by
  induction m with
  | nil => exact Memory.wf_cons (by simp) rfl v
  | cons d m ih =>
    obtain ⟨b, w⟩ := d
    obtain ⟨hw, hb, hm'⟩ := Memory.wf_pair.1 hm
    simp only [Memory.write]
    split
    · next hab =>
      refine Memory.wf_cons (fun c hc => ?_) hm v
      rcases List.mem_cons.1 hc with rfl | hc
      · exact hab
      · exact Nat.lt_trans hab (hb c hc)
    · next hab =>
      split
      · next heq => subst heq; exact Memory.wf_cons hb hm' v
      · next hne =>
        refine Memory.wf_pair.2 ⟨hw, fun c hc => ?_, ih hm'⟩
        rcases Memory.mem_write hc with hc | hc
        · omega
        · exact hb c hc

/-- A read after a write: the byte written at its address, every other address as before. -/
theorem Memory.read_write {m : Memory} (hm : m.wf = true) (a : Nat) (v : Byte) (x : Nat) :
    (m.write a v).read x = if x = a then v else m.read x := by
  induction m with
  | nil => exact Memory.read_cons (by simp) v x
  | cons d m ih =>
    obtain ⟨b, w⟩ := d
    obtain ⟨_, hb, hm'⟩ := Memory.wf_pair.1 hm
    simp only [Memory.write]
    split
    · next hab =>
      refine Memory.read_cons (fun c hc => ?_) v x
      rcases List.mem_cons.1 hc with rfl | hc
      · exact hab
      · exact Nat.lt_trans hab (hb c hc)
    · next hab =>
      split
      · next heq =>
        subst heq
        rw [Memory.read_cons hb, Memory.read_pair]
        split <;> rfl
      · next hne =>
        rw [Memory.read_pair, Memory.read_pair, ih hm']
        split
        · next hx => rw [if_neg (by omega)]
        · rfl

/-- A write inside the space stays inside it. -/
theorem Memory.within_write {n : Nat} {m : Memory} (hm : m.within n = true) {a : Nat} (ha : a < n) (v : Byte) :
    (m.write a v).within n = true := by
  simp only [Memory.within, List.all_eq_true, decide_eq_true_eq] at hm ⊢
  intro c hc
  rcases Memory.mem_write hc with h | h
  · omega
  · exact hm c h

/-- In canonical form, equal contents are equal lists. -/
theorem Memory.eq_of_read_eq {m m' : Memory} (hm : m.wf = true) (hm' : m'.wf = true)
    (h : ∀ a, m.read a = m'.read a) : m = m' := by
  induction m generalizing m' with
  | nil =>
    cases m' with
    | nil => rfl
    | cons d m' =>
      obtain ⟨b, w⟩ := d
      have := h b
      rw [Memory.read_pair, if_pos rfl] at this
      exact absurd this.symm (Memory.wf_pair.1 hm').1
  | cons c m ih =>
    obtain ⟨a, v⟩ := c
    obtain ⟨hv, ha, hw⟩ := Memory.wf_pair.1 hm
    cases m' with
    | nil =>
      have := h a
      rw [Memory.read_pair, if_pos rfl] at this
      exact absurd this hv
    | cons d m' =>
      obtain ⟨b, w⟩ := d
      obtain ⟨hv', hb, hw'⟩ := Memory.wf_pair.1 hm'
      have hab : a = b := by
        rcases Nat.lt_trichotomy a b with hlt | heq | hgt
        · have := h a
          rw [Memory.read_pair, if_pos rfl, Memory.read_pair, if_neg (by omega),
            Memory.read_of_below fun c hc => Nat.lt_trans hlt (hb c hc)] at this
          exact absurd this hv
        · exact heq
        · have := h b
          rw [Memory.read_pair, if_neg (by omega), Memory.read_pair, if_pos rfl,
            Memory.read_of_below fun c hc => Nat.lt_trans hgt (ha c hc)] at this
          exact absurd this.symm hv'
      subst hab
      have hvw : v = w := by simpa [Memory.read_pair] using h a
      subst hvw
      have hmm : m = m' := by
        refine ih hw hw' fun x => ?_
        by_cases hx : x = a
        · subst hx; rw [Memory.read_of_below ha, Memory.read_of_below hb]
        · simpa [Memory.read_pair, hx] using h x
      rw [hmm]

/-- Writing a byte twice is writing it once (20_memory.md R78). -/
theorem Memory.write_write_self {m : Memory} (hm : m.wf = true) (a : Nat) (v : Byte) :
    (m.write a v).write a v = m.write a v := by
  refine Memory.eq_of_read_eq (Memory.wf_write (Memory.wf_write hm a v) a v) (Memory.wf_write hm a v) fun x => ?_
  rw [Memory.read_write (Memory.wf_write hm a v), Memory.read_write hm]
  split <;> rfl

/-! ### Memories made of a list of bytes -/

theorem Memory.mem_fromBytes {a : Nat} {vs : List Byte} {c : Host.Cell} (h : c ∈ Memory.fromBytes a vs) :
    a ≤ c.1 ∧ c.1 < a + vs.length := by
  induction vs generalizing a with
  | nil => simp [Memory.fromBytes] at h
  | cons v vs ih =>
    rcases Memory.mem_cons h with h | h
    · simp [h]
    · have := ih h
      simp only [List.length_cons]
      omega

theorem Memory.wf_fromBytes (a : Nat) (vs : List Byte) : (Memory.fromBytes a vs).wf = true := by
  induction vs generalizing a with
  | nil => rfl
  | cons v vs ih =>
    refine Memory.wf_cons (fun c hc => ?_) (ih (a + 1)) v
    have := Memory.mem_fromBytes hc
    omega

theorem Memory.read_fromBytes (a : Nat) (vs : List Byte) (x : Nat) :
    (Memory.fromBytes a vs).read (a + x) = vs.getD x 0 := by
  induction vs generalizing a x with
  | nil => simp [Memory.fromBytes]
  | cons v vs ih =>
    have hlow : ∀ c ∈ Memory.fromBytes (a + 1) vs, a < c.1 := fun c hc => by
      have := Memory.mem_fromBytes hc
      omega
    rw [Memory.fromBytes, Memory.read_cons hlow]
    cases x with
    | zero => simp
    | succ x =>
      rw [if_neg (by omega), show a + (x + 1) = a + 1 + x by omega, ih]
      simp

theorem Memory.wf_ofBytes (size : Nat) (vs : List Byte) : (Memory.ofBytes size vs).wf = true :=
  Memory.wf_fromBytes 0 _

theorem Memory.within_ofBytes (size : Nat) (vs : List Byte) : (Memory.ofBytes size vs).within size = true := by
  simp only [Memory.within, List.all_eq_true, decide_eq_true_eq]
  intro c hc
  have := Memory.mem_fromBytes hc
  simp only [List.length_take] at this
  omega

/-- A cell of a memory made of bytes. -/
theorem Memory.read_ofBytes {size i : Nat} (h : i < size) (vs : List Byte) :
    (Memory.ofBytes size vs).read i = vs.getD i 0 := by
  have := Memory.read_fromBytes 0 (vs.take size) i
  rw [Nat.zero_add] at this
  rw [Memory.ofBytes, this]
  simp [List.getD, h]

/-! ### Runs of bytes -/

@[simp] theorem Memory.length_bytesFrom (m : Memory) (a n : Nat) : (m.bytesFrom a n).length = n := by
  induction n generalizing a with
  | zero => rfl
  | succ n ih => simp [Memory.bytesFrom, ih]

theorem Memory.getElem?_bytesFrom (m : Memory) (a n i : Nat) :
    (m.bytesFrom a n)[i]? = if i < n then some (m.read (a + i)) else none := by
  induction n generalizing a i with
  | zero => simp [Memory.bytesFrom]
  | succ n ih =>
    cases i with
    | zero => simp [Memory.bytesFrom]
    | succ i =>
      simp only [Memory.bytesFrom, List.getElem?_cons_succ, ih, Nat.add_lt_add_iff_right]
      rw [show a + 1 + i = a + (i + 1) by omega]

/-- Two memories that agree on the addresses of a run give the same bytes. -/
theorem Memory.bytesFrom_congr {m m' : Memory} {a n : Nat} (h : ∀ x, a ≤ x → x < a + n → m.read x = m'.read x) :
    m.bytesFrom a n = m'.bytesFrom a n := by
  induction n generalizing a with
  | zero => rfl
  | succ n ih =>
    rw [Memory.bytesFrom, Memory.bytesFrom, h a (by omega) (by omega), ih fun x h1 h2 => h x (by omega) (by omega)]

/-- The bytes of a memory made of a list are the list. -/
theorem Memory.bytesFrom_ofBytes {size : Nat} {vs : List Byte} (h : vs.length ≤ size) :
    (Memory.ofBytes size vs).bytesFrom 0 vs.length = vs := by
  apply List.ext_getElem?
  intro i
  rw [Memory.getElem?_bytesFrom, Nat.zero_add]
  split
  · next hi => rw [Memory.read_ofBytes (by omega)]; simp [List.getD, hi]
  · next hi => rw [List.getElem?_eq_none (by omega)]

end Sys2Proof.Machine
end

