-- ==== Sys2Proof/Laws/State.lean ====
section
/-! SUPPORT. One lemma per field per update of State, so that no proof unfolds a record update. -/

namespace Sys2Proof.Machine

variable (s : State)

/-! ### withSlot -/

@[simp] theorem State.withSlot_err (k : Nat) (sl : Slot) : (s.withSlot k sl).err = s.err := rfl
@[simp] theorem State.withSlot_errCode (k : Nat) (sl : Slot) : (s.withSlot k sl).errCode = s.errCode := rfl
@[simp] theorem State.withSlot_errSlot (k : Nat) (sl : Slot) : (s.withSlot k sl).errSlot = s.errSlot := rfl
@[simp] theorem State.withSlot_errOp (k : Nat) (sl : Slot) : (s.withSlot k sl).errOp = s.errOp := rfl
@[simp] theorem State.withSlot_keyLen (k : Nat) (sl : Slot) : (s.withSlot k sl).keyLen = s.keyLen := rfl
@[simp] theorem State.withSlot_period (k : Nat) (sl : Slot) : (s.withSlot k sl).period = s.period := rfl
@[simp] theorem State.withSlot_rotStep (k : Nat) (sl : Slot) : (s.withSlot k sl).rotStep = s.rotStep := rfl
@[simp] theorem State.withSlot_chainLen (k : Nat) (sl : Slot) : (s.withSlot k sl).chainLen = s.chainLen := rfl
@[simp] theorem State.withSlot_bufLen (k : Nat) (sl : Slot) : (s.withSlot k sl).bufLen = s.bufLen := rfl
@[simp] theorem State.withSlot_slots (k : Nat) (sl : Slot) : (s.withSlot k sl).slots = s.slots.set k sl := rfl
@[simp] theorem State.withSlot_keyBuf (k : Nat) (sl : Slot) : (s.withSlot k sl).keyBuf = s.keyBuf := rfl
@[simp] theorem State.withSlot_bufSize (k : Nat) (sl : Slot) : (s.withSlot k sl).bufSize = s.bufSize := rfl
@[simp] theorem State.withSlot_buf (k : Nat) (sl : Slot) : (s.withSlot k sl).buf = s.buf := rfl
@[simp] theorem State.withSlot_rsp (k : Nat) (sl : Slot) : (s.withSlot k sl).rsp = s.rsp := rfl
@[simp] theorem State.withSlot_sent (k : Nat) (sl : Slot) : (s.withSlot k sl).sent = s.sent := rfl
@[simp] theorem State.withSlot_draw (k : Nat) (sl : Slot) : (s.withSlot k sl).draw = s.draw := rfl
@[simp] theorem State.withSlot_pins (k : Nat) (sl : Slot) : (s.withSlot k sl).pins = s.pins := rfl

/-! ### withKeyLen -/

@[simp] theorem State.withKeyLen_err (v : BitVec 9) : (s.withKeyLen v).err = s.err := rfl
@[simp] theorem State.withKeyLen_errCode (v : BitVec 9) : (s.withKeyLen v).errCode = s.errCode := rfl
@[simp] theorem State.withKeyLen_errSlot (v : BitVec 9) : (s.withKeyLen v).errSlot = s.errSlot := rfl
@[simp] theorem State.withKeyLen_errOp (v : BitVec 9) : (s.withKeyLen v).errOp = s.errOp := rfl
@[simp] theorem State.withKeyLen_keyLen (v : BitVec 9) : (s.withKeyLen v).keyLen = v := rfl
@[simp] theorem State.withKeyLen_period (v : BitVec 9) : (s.withKeyLen v).period = s.period := rfl
@[simp] theorem State.withKeyLen_rotStep (v : BitVec 9) : (s.withKeyLen v).rotStep = s.rotStep := rfl
@[simp] theorem State.withKeyLen_chainLen (v : BitVec 9) : (s.withKeyLen v).chainLen = s.chainLen := rfl
@[simp] theorem State.withKeyLen_bufLen (v : BitVec 9) : (s.withKeyLen v).bufLen = s.bufLen := rfl
@[simp] theorem State.withKeyLen_slots (v : BitVec 9) : (s.withKeyLen v).slots = s.slots := rfl
@[simp] theorem State.withKeyLen_keyBuf (v : BitVec 9) : (s.withKeyLen v).keyBuf = s.keyBuf := rfl
@[simp] theorem State.withKeyLen_bufSize (v : BitVec 9) : (s.withKeyLen v).bufSize = s.bufSize := rfl
@[simp] theorem State.withKeyLen_buf (v : BitVec 9) : (s.withKeyLen v).buf = s.buf := rfl
@[simp] theorem State.withKeyLen_rsp (v : BitVec 9) : (s.withKeyLen v).rsp = s.rsp := rfl
@[simp] theorem State.withKeyLen_sent (v : BitVec 9) : (s.withKeyLen v).sent = s.sent := rfl
@[simp] theorem State.withKeyLen_draw (v : BitVec 9) : (s.withKeyLen v).draw = s.draw := rfl
@[simp] theorem State.withKeyLen_pins (v : BitVec 9) : (s.withKeyLen v).pins = s.pins := rfl
@[simp] theorem State.withKeyLen_nr (v : BitVec 9) : (s.withKeyLen v).nr = s.nr := rfl
@[simp] theorem State.withKeyLen_slotAt (v : BitVec 9) (j : Nat) : (s.withKeyLen v).slotAt j = s.slotAt j := rfl
@[simp] theorem State.withKeyLen_config (v : BitVec 9) : (s.withKeyLen v).config = s.config := rfl

/-! ### withPeriod -/

@[simp] theorem State.withPeriod_err (v : BitVec 32) : (s.withPeriod v).err = s.err := rfl
@[simp] theorem State.withPeriod_errCode (v : BitVec 32) : (s.withPeriod v).errCode = s.errCode := rfl
@[simp] theorem State.withPeriod_errSlot (v : BitVec 32) : (s.withPeriod v).errSlot = s.errSlot := rfl
@[simp] theorem State.withPeriod_errOp (v : BitVec 32) : (s.withPeriod v).errOp = s.errOp := rfl
@[simp] theorem State.withPeriod_keyLen (v : BitVec 32) : (s.withPeriod v).keyLen = s.keyLen := rfl
@[simp] theorem State.withPeriod_period (v : BitVec 32) : (s.withPeriod v).period = v := rfl
@[simp] theorem State.withPeriod_rotStep (v : BitVec 32) : (s.withPeriod v).rotStep = s.rotStep := rfl
@[simp] theorem State.withPeriod_chainLen (v : BitVec 32) : (s.withPeriod v).chainLen = s.chainLen := rfl
@[simp] theorem State.withPeriod_bufLen (v : BitVec 32) : (s.withPeriod v).bufLen = s.bufLen := rfl
@[simp] theorem State.withPeriod_slots (v : BitVec 32) : (s.withPeriod v).slots = s.slots := rfl
@[simp] theorem State.withPeriod_keyBuf (v : BitVec 32) : (s.withPeriod v).keyBuf = s.keyBuf := rfl
@[simp] theorem State.withPeriod_bufSize (v : BitVec 32) : (s.withPeriod v).bufSize = s.bufSize := rfl
@[simp] theorem State.withPeriod_buf (v : BitVec 32) : (s.withPeriod v).buf = s.buf := rfl
@[simp] theorem State.withPeriod_rsp (v : BitVec 32) : (s.withPeriod v).rsp = s.rsp := rfl
@[simp] theorem State.withPeriod_sent (v : BitVec 32) : (s.withPeriod v).sent = s.sent := rfl
@[simp] theorem State.withPeriod_draw (v : BitVec 32) : (s.withPeriod v).draw = s.draw := rfl
@[simp] theorem State.withPeriod_pins (v : BitVec 32) : (s.withPeriod v).pins = s.pins := rfl
@[simp] theorem State.withPeriod_nr (v : BitVec 32) : (s.withPeriod v).nr = s.nr := rfl
@[simp] theorem State.withPeriod_slotAt (v : BitVec 32) (j : Nat) : (s.withPeriod v).slotAt j = s.slotAt j := rfl
@[simp] theorem State.withPeriod_config (v : BitVec 32) : (s.withPeriod v).config = s.config := rfl

/-! ### withRotStep -/

@[simp] theorem State.withRotStep_err (v : BitVec 8) : (s.withRotStep v).err = s.err := rfl
@[simp] theorem State.withRotStep_errCode (v : BitVec 8) : (s.withRotStep v).errCode = s.errCode := rfl
@[simp] theorem State.withRotStep_errSlot (v : BitVec 8) : (s.withRotStep v).errSlot = s.errSlot := rfl
@[simp] theorem State.withRotStep_errOp (v : BitVec 8) : (s.withRotStep v).errOp = s.errOp := rfl
@[simp] theorem State.withRotStep_keyLen (v : BitVec 8) : (s.withRotStep v).keyLen = s.keyLen := rfl
@[simp] theorem State.withRotStep_period (v : BitVec 8) : (s.withRotStep v).period = s.period := rfl
@[simp] theorem State.withRotStep_rotStep (v : BitVec 8) : (s.withRotStep v).rotStep = v := rfl
@[simp] theorem State.withRotStep_chainLen (v : BitVec 8) : (s.withRotStep v).chainLen = s.chainLen := rfl
@[simp] theorem State.withRotStep_bufLen (v : BitVec 8) : (s.withRotStep v).bufLen = s.bufLen := rfl
@[simp] theorem State.withRotStep_slots (v : BitVec 8) : (s.withRotStep v).slots = s.slots := rfl
@[simp] theorem State.withRotStep_keyBuf (v : BitVec 8) : (s.withRotStep v).keyBuf = s.keyBuf := rfl
@[simp] theorem State.withRotStep_bufSize (v : BitVec 8) : (s.withRotStep v).bufSize = s.bufSize := rfl
@[simp] theorem State.withRotStep_buf (v : BitVec 8) : (s.withRotStep v).buf = s.buf := rfl
@[simp] theorem State.withRotStep_rsp (v : BitVec 8) : (s.withRotStep v).rsp = s.rsp := rfl
@[simp] theorem State.withRotStep_sent (v : BitVec 8) : (s.withRotStep v).sent = s.sent := rfl
@[simp] theorem State.withRotStep_draw (v : BitVec 8) : (s.withRotStep v).draw = s.draw := rfl
@[simp] theorem State.withRotStep_pins (v : BitVec 8) : (s.withRotStep v).pins = s.pins := rfl
@[simp] theorem State.withRotStep_nr (v : BitVec 8) : (s.withRotStep v).nr = s.nr := rfl
@[simp] theorem State.withRotStep_slotAt (v : BitVec 8) (j : Nat) : (s.withRotStep v).slotAt j = s.slotAt j := rfl
@[simp] theorem State.withRotStep_config (v : BitVec 8) : (s.withRotStep v).config = s.config := rfl

/-! ### withChainLen -/

@[simp] theorem State.withChainLen_err (v : BitVec 9) : (s.withChainLen v).err = s.err := rfl
@[simp] theorem State.withChainLen_errCode (v : BitVec 9) : (s.withChainLen v).errCode = s.errCode := rfl
@[simp] theorem State.withChainLen_errSlot (v : BitVec 9) : (s.withChainLen v).errSlot = s.errSlot := rfl
@[simp] theorem State.withChainLen_errOp (v : BitVec 9) : (s.withChainLen v).errOp = s.errOp := rfl
@[simp] theorem State.withChainLen_keyLen (v : BitVec 9) : (s.withChainLen v).keyLen = s.keyLen := rfl
@[simp] theorem State.withChainLen_period (v : BitVec 9) : (s.withChainLen v).period = s.period := rfl
@[simp] theorem State.withChainLen_rotStep (v : BitVec 9) : (s.withChainLen v).rotStep = s.rotStep := rfl
@[simp] theorem State.withChainLen_chainLen (v : BitVec 9) : (s.withChainLen v).chainLen = v := rfl
@[simp] theorem State.withChainLen_bufLen (v : BitVec 9) : (s.withChainLen v).bufLen = s.bufLen := rfl
@[simp] theorem State.withChainLen_slots (v : BitVec 9) : (s.withChainLen v).slots = s.slots := rfl
@[simp] theorem State.withChainLen_keyBuf (v : BitVec 9) : (s.withChainLen v).keyBuf = s.keyBuf := rfl
@[simp] theorem State.withChainLen_bufSize (v : BitVec 9) : (s.withChainLen v).bufSize = s.bufSize := rfl
@[simp] theorem State.withChainLen_buf (v : BitVec 9) : (s.withChainLen v).buf = s.buf := rfl
@[simp] theorem State.withChainLen_rsp (v : BitVec 9) : (s.withChainLen v).rsp = s.rsp := rfl
@[simp] theorem State.withChainLen_sent (v : BitVec 9) : (s.withChainLen v).sent = s.sent := rfl
@[simp] theorem State.withChainLen_draw (v : BitVec 9) : (s.withChainLen v).draw = s.draw := rfl
@[simp] theorem State.withChainLen_pins (v : BitVec 9) : (s.withChainLen v).pins = s.pins := rfl
@[simp] theorem State.withChainLen_nr (v : BitVec 9) : (s.withChainLen v).nr = s.nr := rfl
@[simp] theorem State.withChainLen_slotAt (v : BitVec 9) (j : Nat) : (s.withChainLen v).slotAt j = s.slotAt j := rfl
@[simp] theorem State.withChainLen_config (v : BitVec 9) : (s.withChainLen v).config = s.config := rfl

/-! ### withBufLen -/

@[simp] theorem State.withBufLen_err (v : BitVec 17) : (s.withBufLen v).err = s.err := rfl
@[simp] theorem State.withBufLen_errCode (v : BitVec 17) : (s.withBufLen v).errCode = s.errCode := rfl
@[simp] theorem State.withBufLen_errSlot (v : BitVec 17) : (s.withBufLen v).errSlot = s.errSlot := rfl
@[simp] theorem State.withBufLen_errOp (v : BitVec 17) : (s.withBufLen v).errOp = s.errOp := rfl
@[simp] theorem State.withBufLen_keyLen (v : BitVec 17) : (s.withBufLen v).keyLen = s.keyLen := rfl
@[simp] theorem State.withBufLen_period (v : BitVec 17) : (s.withBufLen v).period = s.period := rfl
@[simp] theorem State.withBufLen_rotStep (v : BitVec 17) : (s.withBufLen v).rotStep = s.rotStep := rfl
@[simp] theorem State.withBufLen_chainLen (v : BitVec 17) : (s.withBufLen v).chainLen = s.chainLen := rfl
@[simp] theorem State.withBufLen_bufLen (v : BitVec 17) : (s.withBufLen v).bufLen = v := rfl
@[simp] theorem State.withBufLen_slots (v : BitVec 17) : (s.withBufLen v).slots = s.slots := rfl
@[simp] theorem State.withBufLen_keyBuf (v : BitVec 17) : (s.withBufLen v).keyBuf = s.keyBuf := rfl
@[simp] theorem State.withBufLen_bufSize (v : BitVec 17) : (s.withBufLen v).bufSize = s.bufSize := rfl
@[simp] theorem State.withBufLen_buf (v : BitVec 17) : (s.withBufLen v).buf = s.buf := rfl
@[simp] theorem State.withBufLen_rsp (v : BitVec 17) : (s.withBufLen v).rsp = s.rsp := rfl
@[simp] theorem State.withBufLen_sent (v : BitVec 17) : (s.withBufLen v).sent = s.sent := rfl
@[simp] theorem State.withBufLen_draw (v : BitVec 17) : (s.withBufLen v).draw = s.draw := rfl
@[simp] theorem State.withBufLen_pins (v : BitVec 17) : (s.withBufLen v).pins = s.pins := rfl
@[simp] theorem State.withBufLen_nr (v : BitVec 17) : (s.withBufLen v).nr = s.nr := rfl
@[simp] theorem State.withBufLen_slotAt (v : BitVec 17) (j : Nat) : (s.withBufLen v).slotAt j = s.slotAt j := rfl
@[simp] theorem State.withBufLen_config (v : BitVec 17) : (s.withBufLen v).config = s.config := rfl

/-! ### withKeyBuf -/

@[simp] theorem State.withKeyBuf_err (m : Memory) : (s.withKeyBuf m).err = s.err := rfl
@[simp] theorem State.withKeyBuf_errCode (m : Memory) : (s.withKeyBuf m).errCode = s.errCode := rfl
@[simp] theorem State.withKeyBuf_errSlot (m : Memory) : (s.withKeyBuf m).errSlot = s.errSlot := rfl
@[simp] theorem State.withKeyBuf_errOp (m : Memory) : (s.withKeyBuf m).errOp = s.errOp := rfl
@[simp] theorem State.withKeyBuf_keyLen (m : Memory) : (s.withKeyBuf m).keyLen = s.keyLen := rfl
@[simp] theorem State.withKeyBuf_period (m : Memory) : (s.withKeyBuf m).period = s.period := rfl
@[simp] theorem State.withKeyBuf_rotStep (m : Memory) : (s.withKeyBuf m).rotStep = s.rotStep := rfl
@[simp] theorem State.withKeyBuf_chainLen (m : Memory) : (s.withKeyBuf m).chainLen = s.chainLen := rfl
@[simp] theorem State.withKeyBuf_bufLen (m : Memory) : (s.withKeyBuf m).bufLen = s.bufLen := rfl
@[simp] theorem State.withKeyBuf_slots (m : Memory) : (s.withKeyBuf m).slots = s.slots := rfl
@[simp] theorem State.withKeyBuf_keyBuf (m : Memory) : (s.withKeyBuf m).keyBuf = m := rfl
@[simp] theorem State.withKeyBuf_bufSize (m : Memory) : (s.withKeyBuf m).bufSize = s.bufSize := rfl
@[simp] theorem State.withKeyBuf_buf (m : Memory) : (s.withKeyBuf m).buf = s.buf := rfl
@[simp] theorem State.withKeyBuf_rsp (m : Memory) : (s.withKeyBuf m).rsp = s.rsp := rfl
@[simp] theorem State.withKeyBuf_sent (m : Memory) : (s.withKeyBuf m).sent = s.sent := rfl
@[simp] theorem State.withKeyBuf_draw (m : Memory) : (s.withKeyBuf m).draw = s.draw := rfl
@[simp] theorem State.withKeyBuf_pins (m : Memory) : (s.withKeyBuf m).pins = s.pins := rfl
@[simp] theorem State.withKeyBuf_nr (m : Memory) : (s.withKeyBuf m).nr = s.nr := rfl
@[simp] theorem State.withKeyBuf_slotAt (m : Memory) (j : Nat) : (s.withKeyBuf m).slotAt j = s.slotAt j := rfl
@[simp] theorem State.withKeyBuf_config (m : Memory) : (s.withKeyBuf m).config = s.config := rfl

/-! ### withBuf -/

@[simp] theorem State.withBuf_err (m : Memory) : (s.withBuf m).err = s.err := rfl
@[simp] theorem State.withBuf_errCode (m : Memory) : (s.withBuf m).errCode = s.errCode := rfl
@[simp] theorem State.withBuf_errSlot (m : Memory) : (s.withBuf m).errSlot = s.errSlot := rfl
@[simp] theorem State.withBuf_errOp (m : Memory) : (s.withBuf m).errOp = s.errOp := rfl
@[simp] theorem State.withBuf_keyLen (m : Memory) : (s.withBuf m).keyLen = s.keyLen := rfl
@[simp] theorem State.withBuf_period (m : Memory) : (s.withBuf m).period = s.period := rfl
@[simp] theorem State.withBuf_rotStep (m : Memory) : (s.withBuf m).rotStep = s.rotStep := rfl
@[simp] theorem State.withBuf_chainLen (m : Memory) : (s.withBuf m).chainLen = s.chainLen := rfl
@[simp] theorem State.withBuf_bufLen (m : Memory) : (s.withBuf m).bufLen = s.bufLen := rfl
@[simp] theorem State.withBuf_slots (m : Memory) : (s.withBuf m).slots = s.slots := rfl
@[simp] theorem State.withBuf_keyBuf (m : Memory) : (s.withBuf m).keyBuf = s.keyBuf := rfl
@[simp] theorem State.withBuf_bufSize (m : Memory) : (s.withBuf m).bufSize = s.bufSize := rfl
@[simp] theorem State.withBuf_buf (m : Memory) : (s.withBuf m).buf = m := rfl
@[simp] theorem State.withBuf_rsp (m : Memory) : (s.withBuf m).rsp = s.rsp := rfl
@[simp] theorem State.withBuf_sent (m : Memory) : (s.withBuf m).sent = s.sent := rfl
@[simp] theorem State.withBuf_draw (m : Memory) : (s.withBuf m).draw = s.draw := rfl
@[simp] theorem State.withBuf_pins (m : Memory) : (s.withBuf m).pins = s.pins := rfl
@[simp] theorem State.withBuf_nr (m : Memory) : (s.withBuf m).nr = s.nr := rfl
@[simp] theorem State.withBuf_slotAt (m : Memory) (j : Nat) : (s.withBuf m).slotAt j = s.slotAt j := rfl
@[simp] theorem State.withBuf_config (m : Memory) : (s.withBuf m).config = s.config := rfl

/-! ### withErrorRegs -/

@[simp] theorem State.withErrorRegs_err (e : Bool) (c : BitVec 4) (sl op : BitVec 8) : (s.withErrorRegs e c sl op).err = e := rfl
@[simp] theorem State.withErrorRegs_errCode (e : Bool) (c : BitVec 4) (sl op : BitVec 8) : (s.withErrorRegs e c sl op).errCode = c := rfl
@[simp] theorem State.withErrorRegs_errSlot (e : Bool) (c : BitVec 4) (sl op : BitVec 8) : (s.withErrorRegs e c sl op).errSlot = sl := rfl
@[simp] theorem State.withErrorRegs_errOp (e : Bool) (c : BitVec 4) (sl op : BitVec 8) : (s.withErrorRegs e c sl op).errOp = op := rfl
@[simp] theorem State.withErrorRegs_keyLen (e : Bool) (c : BitVec 4) (sl op : BitVec 8) : (s.withErrorRegs e c sl op).keyLen = s.keyLen := rfl
@[simp] theorem State.withErrorRegs_period (e : Bool) (c : BitVec 4) (sl op : BitVec 8) : (s.withErrorRegs e c sl op).period = s.period := rfl
@[simp] theorem State.withErrorRegs_rotStep (e : Bool) (c : BitVec 4) (sl op : BitVec 8) : (s.withErrorRegs e c sl op).rotStep = s.rotStep := rfl
@[simp] theorem State.withErrorRegs_chainLen (e : Bool) (c : BitVec 4) (sl op : BitVec 8) : (s.withErrorRegs e c sl op).chainLen = s.chainLen := rfl
@[simp] theorem State.withErrorRegs_bufLen (e : Bool) (c : BitVec 4) (sl op : BitVec 8) : (s.withErrorRegs e c sl op).bufLen = s.bufLen := rfl
@[simp] theorem State.withErrorRegs_slots (e : Bool) (c : BitVec 4) (sl op : BitVec 8) : (s.withErrorRegs e c sl op).slots = s.slots := rfl
@[simp] theorem State.withErrorRegs_keyBuf (e : Bool) (c : BitVec 4) (sl op : BitVec 8) : (s.withErrorRegs e c sl op).keyBuf = s.keyBuf := rfl
@[simp] theorem State.withErrorRegs_bufSize (e : Bool) (c : BitVec 4) (sl op : BitVec 8) : (s.withErrorRegs e c sl op).bufSize = s.bufSize := rfl
@[simp] theorem State.withErrorRegs_buf (e : Bool) (c : BitVec 4) (sl op : BitVec 8) : (s.withErrorRegs e c sl op).buf = s.buf := rfl
@[simp] theorem State.withErrorRegs_rsp (e : Bool) (c : BitVec 4) (sl op : BitVec 8) : (s.withErrorRegs e c sl op).rsp = s.rsp := rfl
@[simp] theorem State.withErrorRegs_sent (e : Bool) (c : BitVec 4) (sl op : BitVec 8) : (s.withErrorRegs e c sl op).sent = s.sent := rfl
@[simp] theorem State.withErrorRegs_draw (e : Bool) (c : BitVec 4) (sl op : BitVec 8) : (s.withErrorRegs e c sl op).draw = s.draw := rfl
@[simp] theorem State.withErrorRegs_pins (e : Bool) (c : BitVec 4) (sl op : BitVec 8) : (s.withErrorRegs e c sl op).pins = s.pins := rfl
@[simp] theorem State.withErrorRegs_nr (e : Bool) (c : BitVec 4) (sl op : BitVec 8) : (s.withErrorRegs e c sl op).nr = s.nr := rfl
@[simp] theorem State.withErrorRegs_slotAt (e : Bool) (c : BitVec 4) (sl op : BitVec 8) (j : Nat) : (s.withErrorRegs e c sl op).slotAt j = s.slotAt j := rfl
@[simp] theorem State.withErrorRegs_config (e : Bool) (c : BitVec 4) (sl op : BitVec 8) : (s.withErrorRegs e c sl op).config = s.config := rfl

/-! ### withRsp -/

@[simp] theorem State.withRsp_err (r : Response) : (s.withRsp r).err = s.err := rfl
@[simp] theorem State.withRsp_errCode (r : Response) : (s.withRsp r).errCode = s.errCode := rfl
@[simp] theorem State.withRsp_errSlot (r : Response) : (s.withRsp r).errSlot = s.errSlot := rfl
@[simp] theorem State.withRsp_errOp (r : Response) : (s.withRsp r).errOp = s.errOp := rfl
@[simp] theorem State.withRsp_keyLen (r : Response) : (s.withRsp r).keyLen = s.keyLen := rfl
@[simp] theorem State.withRsp_period (r : Response) : (s.withRsp r).period = s.period := rfl
@[simp] theorem State.withRsp_rotStep (r : Response) : (s.withRsp r).rotStep = s.rotStep := rfl
@[simp] theorem State.withRsp_chainLen (r : Response) : (s.withRsp r).chainLen = s.chainLen := rfl
@[simp] theorem State.withRsp_bufLen (r : Response) : (s.withRsp r).bufLen = s.bufLen := rfl
@[simp] theorem State.withRsp_slots (r : Response) : (s.withRsp r).slots = s.slots := rfl
@[simp] theorem State.withRsp_keyBuf (r : Response) : (s.withRsp r).keyBuf = s.keyBuf := rfl
@[simp] theorem State.withRsp_bufSize (r : Response) : (s.withRsp r).bufSize = s.bufSize := rfl
@[simp] theorem State.withRsp_buf (r : Response) : (s.withRsp r).buf = s.buf := rfl
@[simp] theorem State.withRsp_rsp (r : Response) : (s.withRsp r).rsp = some r := rfl
@[simp] theorem State.withRsp_sent (r : Response) : (s.withRsp r).sent = s.sent := rfl
@[simp] theorem State.withRsp_draw (r : Response) : (s.withRsp r).draw = s.draw := rfl
@[simp] theorem State.withRsp_pins (r : Response) : (s.withRsp r).pins = s.pins := rfl
@[simp] theorem State.withRsp_nr (r : Response) : (s.withRsp r).nr = s.nr := rfl
@[simp] theorem State.withRsp_slotAt (r : Response) (j : Nat) : (s.withRsp r).slotAt j = s.slotAt j := rfl
@[simp] theorem State.withRsp_config (r : Response) : (s.withRsp r).config = s.config := rfl

/-! ### transfer -/

@[simp] theorem State.transfer_err (r : Response) : (s.transfer r).err = s.err := rfl
@[simp] theorem State.transfer_errCode (r : Response) : (s.transfer r).errCode = s.errCode := rfl
@[simp] theorem State.transfer_errSlot (r : Response) : (s.transfer r).errSlot = s.errSlot := rfl
@[simp] theorem State.transfer_errOp (r : Response) : (s.transfer r).errOp = s.errOp := rfl
@[simp] theorem State.transfer_keyLen (r : Response) : (s.transfer r).keyLen = s.keyLen := rfl
@[simp] theorem State.transfer_period (r : Response) : (s.transfer r).period = s.period := rfl
@[simp] theorem State.transfer_rotStep (r : Response) : (s.transfer r).rotStep = s.rotStep := rfl
@[simp] theorem State.transfer_chainLen (r : Response) : (s.transfer r).chainLen = s.chainLen := rfl
@[simp] theorem State.transfer_bufLen (r : Response) : (s.transfer r).bufLen = s.bufLen := rfl
@[simp] theorem State.transfer_slots (r : Response) : (s.transfer r).slots = s.slots := rfl
@[simp] theorem State.transfer_keyBuf (r : Response) : (s.transfer r).keyBuf = s.keyBuf := rfl
@[simp] theorem State.transfer_bufSize (r : Response) : (s.transfer r).bufSize = s.bufSize := rfl
@[simp] theorem State.transfer_buf (r : Response) : (s.transfer r).buf = s.buf := rfl
@[simp] theorem State.transfer_rsp (r : Response) : (s.transfer r).rsp = none := rfl
@[simp] theorem State.transfer_sent (r : Response) : (s.transfer r).sent = s.sent ++ [r] := rfl
@[simp] theorem State.transfer_draw (r : Response) : (s.transfer r).draw = s.draw := rfl
@[simp] theorem State.transfer_pins (r : Response) : (s.transfer r).pins = s.pins := rfl
@[simp] theorem State.transfer_nr (r : Response) : (s.transfer r).nr = s.nr := rfl
@[simp] theorem State.transfer_slotAt (r : Response) (j : Nat) : (s.transfer r).slotAt j = s.slotAt j := rfl
@[simp] theorem State.transfer_config (r : Response) : (s.transfer r).config = s.config := rfl

/-! ### withEdge -/

@[simp] theorem State.withEdge_err (d : MemoryDraw) (ps : List PortInput) : (s.withEdge d ps).err = s.err := rfl
@[simp] theorem State.withEdge_errCode (d : MemoryDraw) (ps : List PortInput) : (s.withEdge d ps).errCode = s.errCode := rfl
@[simp] theorem State.withEdge_errSlot (d : MemoryDraw) (ps : List PortInput) : (s.withEdge d ps).errSlot = s.errSlot := rfl
@[simp] theorem State.withEdge_errOp (d : MemoryDraw) (ps : List PortInput) : (s.withEdge d ps).errOp = s.errOp := rfl
@[simp] theorem State.withEdge_keyLen (d : MemoryDraw) (ps : List PortInput) : (s.withEdge d ps).keyLen = s.keyLen := rfl
@[simp] theorem State.withEdge_period (d : MemoryDraw) (ps : List PortInput) : (s.withEdge d ps).period = s.period := rfl
@[simp] theorem State.withEdge_rotStep (d : MemoryDraw) (ps : List PortInput) : (s.withEdge d ps).rotStep = s.rotStep := rfl
@[simp] theorem State.withEdge_chainLen (d : MemoryDraw) (ps : List PortInput) : (s.withEdge d ps).chainLen = s.chainLen := rfl
@[simp] theorem State.withEdge_bufLen (d : MemoryDraw) (ps : List PortInput) : (s.withEdge d ps).bufLen = s.bufLen := rfl
@[simp] theorem State.withEdge_slots (d : MemoryDraw) (ps : List PortInput) : (s.withEdge d ps).slots = s.slots := rfl
@[simp] theorem State.withEdge_keyBuf (d : MemoryDraw) (ps : List PortInput) : (s.withEdge d ps).keyBuf = s.keyBuf := rfl
@[simp] theorem State.withEdge_bufSize (d : MemoryDraw) (ps : List PortInput) : (s.withEdge d ps).bufSize = s.bufSize := rfl
@[simp] theorem State.withEdge_buf (d : MemoryDraw) (ps : List PortInput) : (s.withEdge d ps).buf = s.buf := rfl
@[simp] theorem State.withEdge_rsp (d : MemoryDraw) (ps : List PortInput) : (s.withEdge d ps).rsp = s.rsp := rfl
@[simp] theorem State.withEdge_sent (d : MemoryDraw) (ps : List PortInput) : (s.withEdge d ps).sent = s.sent := rfl
@[simp] theorem State.withEdge_draw (d : MemoryDraw) (ps : List PortInput) : (s.withEdge d ps).draw = d := rfl
@[simp] theorem State.withEdge_pins (d : MemoryDraw) (ps : List PortInput) : (s.withEdge d ps).pins = ps := rfl
@[simp] theorem State.withEdge_nr (d : MemoryDraw) (ps : List PortInput) : (s.withEdge d ps).nr = s.nr := rfl
@[simp] theorem State.withEdge_slotAt (d : MemoryDraw) (ps : List PortInput) (j : Nat) : (s.withEdge d ps).slotAt j = s.slotAt j := rfl
@[simp] theorem State.withEdge_config (d : MemoryDraw) (ps : List PortInput) : (s.withEdge d ps).config = s.config := rfl

/-! ### afterReset -/

@[simp] theorem State.afterReset_err (d : MemoryDraw) : (s.afterReset d).err = false := rfl
@[simp] theorem State.afterReset_errCode (d : MemoryDraw) : (s.afterReset d).errCode = 0 := rfl
@[simp] theorem State.afterReset_errSlot (d : MemoryDraw) : (s.afterReset d).errSlot = 0 := rfl
@[simp] theorem State.afterReset_errOp (d : MemoryDraw) : (s.afterReset d).errOp = 0 := rfl
@[simp] theorem State.afterReset_keyLen (d : MemoryDraw) : (s.afterReset d).keyLen = 0 := rfl
@[simp] theorem State.afterReset_period (d : MemoryDraw) : (s.afterReset d).period = 0 := rfl
@[simp] theorem State.afterReset_rotStep (d : MemoryDraw) : (s.afterReset d).rotStep = 0 := rfl
@[simp] theorem State.afterReset_chainLen (d : MemoryDraw) : (s.afterReset d).chainLen = 0 := rfl
@[simp] theorem State.afterReset_bufLen (d : MemoryDraw) : (s.afterReset d).bufLen = 0 := rfl
@[simp] theorem State.afterReset_slots (d : MemoryDraw) : (s.afterReset d).slots = resetSlots d.perms s.nr := rfl
@[simp] theorem State.afterReset_keyBuf (d : MemoryDraw) : (s.afterReset d).keyBuf = Memory.ofBytes 256 d.keyBuf := rfl
@[simp] theorem State.afterReset_bufSize (d : MemoryDraw) : (s.afterReset d).bufSize = s.bufSize := rfl
@[simp] theorem State.afterReset_buf (d : MemoryDraw) : (s.afterReset d).buf = Memory.ofBytes s.bufSize d.buf := rfl
@[simp] theorem State.afterReset_rsp (d : MemoryDraw) : (s.afterReset d).rsp = none := rfl
@[simp] theorem State.afterReset_sent (d : MemoryDraw) : (s.afterReset d).sent = s.sent := rfl
@[simp] theorem State.afterReset_draw (d : MemoryDraw) : (s.afterReset d).draw = s.draw := rfl
@[simp] theorem State.afterReset_pins (d : MemoryDraw) : (s.afterReset d).pins = s.pins := rfl

/-! ### The slot file -/

theorem length_resetSlots (perms : List (List Byte)) (n : Nat) : (resetSlots perms n).length = n := by
  simp [resetSlots]

@[simp] theorem State.withSlot_nr (k : Nat) (sl : Slot) : (s.withSlot k sl).nr = s.nr := by
  simp [State.nr]

@[simp] theorem State.withSlot_config (k : Nat) (sl : Slot) : (s.withSlot k sl).config = s.config := by
  simp [State.config]

@[simp] theorem State.afterReset_nr (d : MemoryDraw) : (s.afterReset d).nr = s.nr := by
  simp [State.nr, length_resetSlots]

@[simp] theorem State.afterReset_config (d : MemoryDraw) : (s.afterReset d).config = s.config := by
  simp [State.config]

/-- The slot just written reads back. -/
theorem State.withSlot_slotAt_self {s : State} {k : Nat} (h : k < s.nr) (sl : Slot) :
    (s.withSlot k sl).slotAt k = sl := by
  have h' : k < s.slots.length := h
  simp [State.slotAt, List.getD, h']

/-- Every other slot reads as before. -/
theorem State.withSlot_slotAt_of_ne {s : State} {j k : Nat} (h : j ≠ k) (sl : Slot) :
    (s.withSlot k sl).slotAt j = s.slotAt j := by
  simp [State.slotAt, List.getD, List.getElem?_set_ne (Ne.symm h)]

/-- Writing a slot back as it reads changes nothing. -/
theorem State.withSlot_slotAt (k : Nat) : s.withSlot k (s.slotAt k) = s := by
  have h : s.slots.set k (s.slotAt k) = s.slots := by
    apply List.ext_getElem?
    intro j
    by_cases hj : k = j
    · subst hj
      by_cases hk : k < s.slots.length
      · simp [State.slotAt, List.getD, hk]
      · simp [hk]
    · simp [List.getElem?_set_ne hj]
  simp [State.withSlot, h]

/-- A slot below NR is an element of the file. -/
theorem State.slotAt_mem {s : State} {k : Nat} (h : k < s.nr) : s.slotAt k ∈ s.slots := by
  have h' : k < s.slots.length := h
  simp [State.slotAt, List.getD, h']

/-- A slot after a reset: blank registers and the drawn table. -/
theorem State.afterReset_slotAt {s : State} {k : Nat} (h : k < s.nr) (d : MemoryDraw) :
    (s.afterReset d).slotAt k = { Slot.blank with perm := Memory.ofBytes 256 (d.perms.getD k []) } := by
  simp [State.slotAt, resetSlots, List.getD, h]

/-- The state after reset is the reset of any instance of the reference configuration with the zero draw. -/
theorem State.reset_eq_afterReset : State.reset = State.reset.afterReset MemoryDraw.zero := by decide

end Sys2Proof.Machine
end

