-- ==== Sys2Proof/Laws/KeySchedule.lean ====
section
/-! SUPPORT. The key schedule: its tables have 256 entries, it only swaps entries of the identity, and the inverse table
takes each entry back to its index. -/

namespace Sys2Proof.Machine

/-- A table of 256 entries no two of which are equal. -/
def IsTable (S : List Byte) : Prop :=
  S.length = 256 ∧ ∀ a b, a < 256 → b < 256 → S.getD a 0 = S.getD b 0 → a = b

/-! ### Swaps -/

@[simp] theorem length_swapEntries (S : List Byte) (i j : Nat) : (swapEntries S i j).length = S.length := by
  simp [swapEntries]

/-- What a swap leaves at each index. -/
theorem getD_swapEntries {S : List Byte} {i j : Nat} (hi : i < S.length) (hj : j < S.length) (k : Nat) :
    (swapEntries S i j).getD k 0 = if k = j then S.getD i 0 else if k = i then S.getD j 0 else S.getD k 0 := by
  simp only [swapEntries, List.getD_eq_getElem?_getD, List.getElem?_set, List.length_set]
  by_cases h1 : k = j
  · subst h1; simp [hj]
  · by_cases h2 : k = i
    · subst h2; simp [h1, Ne.symm h1, hi]
    · simp [h1, h2, Ne.symm h1, Ne.symm h2]

/-- A swap of two entries keeps a table a table (40_key_schedule.md R148). -/
theorem IsTable.swapEntries {S : List Byte} (h : IsTable S) {i j : Nat} (hi : i < 256) (hj : j < 256) :
    IsTable (swapEntries S i j) := by
  obtain ⟨hlen, hinj⟩ := h
  refine ⟨by simp [hlen], fun a b ha hb hab => ?_⟩
  rw [getD_swapEntries (by omega) (by omega), getD_swapEntries (by omega) (by omega)] at hab
  split_ifs at hab with h1 h2 h3 h4 h5 h6 h7 <;> have := hinj _ _ (by omega) (by omega) hab <;> omega

/-! ### The schedule -/

theorem isTable_identityTable : IsTable identityTable := by
  refine ⟨by simp [identityTable], fun a b ha hb hab => ?_⟩
  have hget : ∀ c < 256, identityTable.getD c 0 = BitVec.ofNat 8 c := fun c hc => by
    simp [identityTable, List.getD, hc]
  rw [hget a ha, hget b hb] at hab
  have := congrArg BitVec.toNat hab
  simp only [BitVec.toNat_ofNat] at this
  omega

/-- The loop of R146 keeps a table a table. -/
theorem IsTable.keyScheduleLoop (K : List Byte) {n i : Nat} (h : i + n ≤ 256) (j : Byte) {S : List Byte}
    (hS : IsTable S) : IsTable (keyScheduleLoop K n i j S) := by
  induction n generalizing i j S with
  | zero => exact hS
  | succ n ih => exact ih (by omega) _ (hS.swapEntries (by omega) (BitVec.isLt _))

/-- The schedule of any key is a table (40_key_schedule.md R148). -/
theorem isTable_keySchedule (K : List Byte) : IsTable (keySchedule K) :=
  isTable_identityTable.keyScheduleLoop K (by omega) _

theorem IsTable.nodup {S : List Byte} (h : IsTable S) : S.Nodup := by
  obtain ⟨hlen, hinj⟩ := h
  rw [List.nodup_iff_injective_getElem]
  intro a b hab
  have ha := a.isLt
  have hb := b.isLt
  refine Fin.ext (hinj a b (by omega) (by omega) ?_)
  simpa [List.getD, ha, hb] using hab

/-- Every byte value stands at some index of a table. -/
theorem IsTable.exists_index {S : List Byte} (h : IsTable S) (y : Byte) : ∃ x : Byte, S.getD x.toNat 0 = y := by
  have hinj : Function.Injective fun x : Byte => S.getD x.toNat 0 := fun x z hxz =>
    BitVec.eq_of_toNat_eq (h.2 _ _ x.isLt z.isLt hxz)
  exact Finite.surjective_of_injective hinj y

/-! ### The inverse -/

@[simp] theorem length_inverseLoop (S : List Byte) (i : Nat) (D : List Byte) :
    (inverseLoop S i D).length = D.length := by
  induction S generalizing i D with
  | nil => rfl
  | cons v S ih => rw [inverseLoop, ih, List.length_set]

/-- A value that does not occur keeps its place. -/
theorem getD_inverseLoop_of_notMem {S : List Byte} {v : Byte} (h : v ∉ S) (i : Nat) (D : List Byte) :
    (inverseLoop S i D).getD v.toNat 0 = D.getD v.toNat 0 := by
  induction S generalizing i D with
  | nil => rfl
  | cons u S ih =>
    obtain ⟨hne, hmem⟩ := not_or.1 (List.mem_cons.not.1 h)
    have hne' : u.toNat ≠ v.toNat := fun hc => hne (BitVec.eq_of_toNat_eq hc.symm)
    rw [inverseLoop, ih hmem, List.getD_eq_getElem?_getD, List.getElem?_set_ne hne', ← List.getD_eq_getElem?_getD]

/-- A value that occurs once, at index `k`, is sent to that index. -/
theorem getD_inverseLoop {S : List Byte} (hS : S.Nodup) {v : Byte} {k : Nat} (h : S[k]? = some v) (i : Nat)
    {D : List Byte} (hD : D.length = 256) :
    (inverseLoop S i D).getD v.toNat 0 = BitVec.ofNat 8 (i + k) := by
  induction S generalizing i k D with
  | nil => simp at h
  | cons u S ih =>
    obtain ⟨hu, hS'⟩ := List.nodup_cons.1 hS
    rw [inverseLoop]
    cases k with
    | zero =>
      obtain rfl : u = v := by simpa using h
      have := u.isLt
      rw [getD_inverseLoop_of_notMem hu, List.getD_eq_getElem?_getD, List.getElem?_set_self (by omega)]
      rfl
    | succ k =>
      rw [ih hS' (by simpa using h) (i + 1) (by simpa using hD)]
      congr 1
      omega

/-- The inverse table takes each entry of a table back to its index (40_key_schedule.md R147). -/
theorem IsTable.inverseTable_getD {S : List Byte} (h : IsTable S) (x : Byte) :
    (inverseTable S).getD (S.getD x.toNat 0).toNat 0 = x := by
  have hx : x.toNat < S.length := by rw [h.1]; exact x.isLt
  have := getD_inverseLoop h.nodup (v := S.getD x.toNat 0) (k := x.toNat) (by simp [List.getD, hx]) 0
    (D := List.replicate 256 0#8) List.length_replicate
  rw [inverseTable, this]
  simp

/-- The inverse of a table is a table. -/
theorem IsTable.inverseTable {S : List Byte} (h : IsTable S) : IsTable (inverseTable S) := by
  refine ⟨by rw [Machine.inverseTable, length_inverseLoop, List.length_replicate], fun a b ha hb hab => ?_⟩
  obtain ⟨x, hx⟩ := h.exists_index (BitVec.ofNat 8 a)
  obtain ⟨y, hy⟩ := h.exists_index (BitVec.ofNat 8 b)
  have hxa := h.inverseTable_getD x
  have hyb := h.inverseTable_getD y
  rw [hx, BitVec.toNat_ofNat, Nat.mod_eq_of_lt (by omega)] at hxa
  rw [hy, BitVec.toNat_ofNat, Nat.mod_eq_of_lt (by omega)] at hyb
  have hxy : x = y := by rw [← hxa, ← hyb, hab]
  have hab' := congrArg BitVec.toNat (hx.symm.trans ((congrArg (fun z : Byte => S.getD z.toNat 0) hxy).trans hy))
  simp only [BitVec.toNat_ofNat] at hab'
  omega

/-- The table BUILD stores is a table in either direction. -/
theorem isTable_rotorTable (d : Direction) (K : List Byte) : IsTable (rotorTable d K) := by
  cases d
  · exact isTable_keySchedule K
  · exact (isTable_keySchedule K).inverseTable

/-! ### The staged key (40_key_schedule.md R149) -/

@[simp] theorem State.length_stagedKey (s : State) : s.stagedKey.length = min s.keyLen.toNat 256 :=
  Memory.length_bytesFrom _ _ _

/-- Byte `i` of the staged key is `KEYBUF[i]`, below the effective length. -/
theorem State.getElem?_stagedKey (s : State) (i : Nat) :
    s.stagedKey[i]? = if i < min s.keyLen.toNat 256 then some (s.keyBuf.read i) else none := by
  rw [State.stagedKey, Memory.getElem?_bytesFrom, Nat.zero_add]
  rfl

/-- A list with the length and the bytes of the staged key is the staged key. -/
theorem State.eq_stagedKey {s : State} {K : List Byte} (hl : K.length = min s.keyLen.toNat 256)
    (h : ∀ i < K.length, K[i]? = some (s.keyBuf.read i)) : K = s.stagedKey := by
  apply List.ext_getElem?
  intro i
  rw [State.getElem?_stagedKey, ← hl]
  split
  · next hi => exact h i hi
  · next hi => rw [List.getElem?_eq_none (by omega)]

/-! ### The built slot -/

/-- An entry of the table of a built slot. -/
theorem State.builtSlot_perm_read (s : State) (d : Direction) {i : Nat} (h : i < 256) :
    (s.builtSlot d).perm.read i = (rotorTable d s.stagedKey).getD i 0 := Memory.read_ofBytes h _

/-- A legal PERIOD is positive as a signed number (10_state.md R36). -/
theorem legalPeriod_iff (p : Word) : legalPeriod p = true ↔ 1 ≤ p.toNat ∧ p.toNat < 2 ^ 31 := by
  have h31 : p.getLsbD 31 = decide (2 ^ 31 ≤ p.toNat) := by
    rw [← BitVec.msb_eq_getLsbD_last, BitVec.msb_eq_decide]
  have h0 : (p == 0#32) = decide (p.toNat = 0) := by
    rw [Bool.eq_iff_iff]
    simp [← BitVec.toNat_inj]
  rw [legalPeriod, h31, h0]
  simp only [Bool.and_eq_true, Bool.not_eq_true', decide_eq_false_iff_not]
  omega

/-- A legal PERIOD, read as a signed number (10_state.md R36). -/
theorem legalPeriod_iff_toInt (p : Word) : legalPeriod p = true ↔ 0 < p.toInt := by
  rw [legalPeriod_iff, BitVec.toInt_eq_toNat_cond]
  have := p.isLt
  split <;> omega

/-- The slot PERIOD of a legal staged PERIOD is the same number (10_state.md R44). -/
theorem State.builtSlot_period {s : State} (h : legalPeriod s.period = true) (d : Direction) :
    (s.builtSlot d).period.toNat = s.period.toNat := by
  have := (legalPeriod_iff _).1 h
  simp only [builtSlot, BitVec.extractLsb'_toNat, Nat.shiftRight_zero]
  omega

end Sys2Proof.Machine
end

