-- ==== Sys2Proof/Laws/Rotor.lean ====
section
/-! SUPPORT. The rotor transform: what a byte changes in a slot, the rotation law, and that a Dec rotor undoes its Enc
counterpart. -/

namespace Sys2Proof.Machine

/-! ### What one byte changes -/

@[simp] theorem Slot.advance_valid (sl : Slot) : sl.advance.valid = sl.valid := by unfold advance; split <;> rfl
@[simp] theorem Slot.advance_dir (sl : Slot) : sl.advance.dir = sl.dir := by unfold advance; split <;> rfl
@[simp] theorem Slot.advance_perm (sl : Slot) : sl.advance.perm = sl.perm := by unfold advance; split <;> rfl
@[simp] theorem Slot.advance_period (sl : Slot) : sl.advance.period = sl.period := by unfold advance; split <;> rfl
@[simp] theorem Slot.advance_rotStep (sl : Slot) : sl.advance.rotStep = sl.rotStep := by unfold advance; split <;> rfl
@[simp] theorem Slot.advance_count (sl : Slot) : sl.advance.count = sl.count + 1 := by unfold advance; split <;> rfl

theorem Slot.advance_phase (sl : Slot) :
    sl.advance.phase = if sl.phase.toNat + 1 = sl.period.toNat then 0 else sl.phase + 1 := by
  unfold advance; split <;> rfl

theorem Slot.advance_offset (sl : Slot) :
    sl.advance.offset = if sl.phase.toNat + 1 = sl.period.toNat then sl.offset + sl.rotStep else sl.offset := by
  unfold advance; split <;> rfl

/-- The slot after `n` bytes: the bytes' values play no part (41_rotor_transform.md R184). -/
def Slot.advanceBy : Nat → Slot → Slot
  | 0, sl => sl
  | n + 1, sl => Slot.advanceBy n sl.advance

theorem Slot.advanceBy_succ (n : Nat) (sl : Slot) : sl.advanceBy (n + 1) = (sl.advanceBy n).advance := by
  induction n generalizing sl with
  | zero => rfl
  | succ n ih => exact ih sl.advance

theorem Slot.advanceBy_add (m n : Nat) (sl : Slot) : sl.advanceBy (m + n) = (sl.advanceBy m).advanceBy n := by
  induction n with
  | zero => rfl
  | succ n ih => rw [← Nat.add_assoc, advanceBy_succ, advanceBy_succ, ih]

@[simp] theorem Slot.advanceBy_valid (n : Nat) (sl : Slot) : (sl.advanceBy n).valid = sl.valid := by
  induction n with
  | zero => rfl
  | succ n ih => rw [advanceBy_succ, advance_valid, ih]
@[simp] theorem Slot.advanceBy_dir (n : Nat) (sl : Slot) : (sl.advanceBy n).dir = sl.dir := by
  induction n with
  | zero => rfl
  | succ n ih => rw [advanceBy_succ, advance_dir, ih]
@[simp] theorem Slot.advanceBy_perm (n : Nat) (sl : Slot) : (sl.advanceBy n).perm = sl.perm := by
  induction n with
  | zero => rfl
  | succ n ih => rw [advanceBy_succ, advance_perm, ih]
@[simp] theorem Slot.advanceBy_period (n : Nat) (sl : Slot) : (sl.advanceBy n).period = sl.period := by
  induction n with
  | zero => rfl
  | succ n ih => rw [advanceBy_succ, advance_period, ih]
@[simp] theorem Slot.advanceBy_rotStep (n : Nat) (sl : Slot) : (sl.advanceBy n).rotStep = sl.rotStep := by
  induction n with
  | zero => rfl
  | succ n ih => rw [advanceBy_succ, advance_rotStep, ih]

/-! ### Sequences -/

@[simp] theorem transform_nil (sl : Slot) : transform sl [] = ([], sl) := rfl

theorem transform_head (sl : Slot) (x : Byte) (xs : List Byte) :
    transform sl (x :: xs) = (sl.output x :: (transform sl.advance xs).1, (transform sl.advance xs).2) := rfl

/-- The slot after a sequence depends on its length alone. -/
theorem transform_slot (sl : Slot) (xs : List Byte) : (transform sl xs).2 = sl.advanceBy xs.length := by
  induction xs generalizing sl with
  | nil => rfl
  | cons x xs ih => exact ih sl.advance

@[simp] theorem length_transform (sl : Slot) (xs : List Byte) : (transform sl xs).1.length = xs.length := by
  induction xs generalizing sl with
  | nil => rfl
  | cons x xs ih => rw [transform_head, List.length_cons, List.length_cons, ih]

/-- Byte number `k` of the output: the slot's output after `k` bytes. -/
theorem transform_getElem? (sl : Slot) (xs : List Byte) (k : Nat) :
    (transform sl xs).1[k]? = xs[k]?.map (sl.advanceBy k).output := by
  induction xs generalizing sl k with
  | nil => simp
  | cons x xs ih =>
    cases k with
    | zero => rfl
    | succ k => rw [transform_head, List.getElem?_cons_succ, List.getElem?_cons_succ]; exact ih sl.advance k

/-- A sequence in two parts: the second part continues from the state the first left (41_rotor_transform.md R188). -/
theorem transform_append (sl : Slot) (xs ys : List Byte) :
    (transform sl (xs ++ ys)).1 = (transform sl xs).1 ++ (transform (transform sl xs).2 ys).1 := by
  induction xs generalizing sl with
  | nil => rfl
  | cons x xs ih => rw [List.cons_append, transform_head, transform_head, ih, List.cons_append]

/-! ### The rotation law (41_rotor_transform.md R184) -/

/-- One more byte keeps the law at one more count. -/
theorem Slot.advance_law {sl : Slot} {k : Nat} (hp : 1 ≤ sl.period.toNat)
    (h1 : sl.phase.toNat = k % sl.period.toNat)
    (h2 : sl.offset.toNat = (sl.rotStep.toNat * (k / sl.period.toNat)) % 256)
    (h3 : sl.count.toNat = k % 2 ^ 32) :
    sl.advance.phase.toNat = (k + 1) % sl.period.toNat ∧
      sl.advance.offset.toNat = (sl.rotStep.toNat * ((k + 1) / sl.period.toNat)) % 256 ∧
      sl.advance.count.toNat = (k + 1) % 2 ^ 32 := by
  have hdm := Nat.div_add_mod k sl.period.toNat
  have hlt := Nat.mod_lt k hp
  have hpl := sl.period.isLt
  refine ⟨?_, ?_, ?_⟩
  · rw [advance_phase]
    split
    · next h =>
      have : (k + 1) = sl.period.toNat * (k / sl.period.toNat + 1) := by
        rw [Nat.mul_add, Nat.mul_one]; omega
      rw [this, Nat.mul_mod_right]
      rfl
    · next h =>
      have hk : k + 1 = (k % sl.period.toNat + 1) + sl.period.toNat * (k / sl.period.toNat) := by omega
      have hone : (1 : BitVec 31).toNat = 1 := rfl
      rw [hk, Nat.add_mul_mod_self_left, Nat.mod_eq_of_lt (by omega), BitVec.toNat_add, h1, hone]
      omega
  · rw [advance_offset]
    split
    · next h =>
      have : (k + 1) = sl.period.toNat * (k / sl.period.toNat + 1) := by
        rw [Nat.mul_add, Nat.mul_one]; omega
      rw [this, Nat.mul_div_cancel_left _ (by omega), Nat.mul_add, Nat.mul_one, BitVec.toNat_add, h2]
      omega
    · next h =>
      have hk : k + 1 = (k % sl.period.toNat + 1) + sl.period.toNat * (k / sl.period.toNat) := by omega
      have hdiv : (k + 1) / sl.period.toNat = k / sl.period.toNat := by
        conv_lhs => rw [hk]
        rw [Nat.add_mul_div_left _ _ (by omega), Nat.div_eq_of_lt (by omega), Nat.zero_add]
      rw [h2, hdiv]
  · have hone : (1 : BitVec 32).toNat = 1 := rfl
    rw [advance_count, BitVec.toNat_add, h3, hone]
    omega

/-- The closed form from a fresh slot. -/
theorem Slot.advanceBy_law {sl : Slot} (hp : 1 ≤ sl.period.toNat) (h1 : sl.phase = 0) (h2 : sl.offset = 0)
    (h3 : sl.count = 0) (k : Nat) :
    (sl.advanceBy k).phase.toNat = k % sl.period.toNat ∧
      (sl.advanceBy k).offset.toNat = (sl.rotStep.toNat * (k / sl.period.toNat)) % 256 ∧
      (sl.advanceBy k).count.toNat = k % 2 ^ 32 := by
  induction k with
  | zero => simp [advanceBy, h1, h2, h3]
  | succ k ih =>
    have := Slot.advance_law (sl := sl.advanceBy k) (by simpa using hp) (by simpa using ih.1) (by simpa using ih.2.1)
      ih.2.2
    rw [advanceBy_succ]
    simpa using this

/-! ### Counterparts (41_rotor_transform.md R185) -/

/-- The two rotors stay in step. -/
theorem Counterpart.advance {e d : Slot} (h : Counterpart e d) : Counterpart e.advance d.advance := by
  obtain ⟨h1, h2, h3, h4, h5, h6, h7⟩ := h
  refine ⟨by simpa using h1, by simpa using h2, by simpa using h3, by simpa using h4, by simpa using h5, ?_, ?_⟩
  · rw [Slot.advance_offset, Slot.advance_offset, h4, h5, h6, h7]
  · rw [Slot.advance_phase, Slot.advance_phase, h4, h7]

theorem Counterpart.advanceBy {e d : Slot} (h : Counterpart e d) (n : Nat) :
    Counterpart (e.advanceBy n) (d.advanceBy n) := by
  induction n with
  | zero => exact h
  | succ n ih => rw [Slot.advanceBy_succ, Slot.advanceBy_succ]; exact ih.advance

/-- The Dec rotor undoes a byte. -/
theorem Counterpart.output {e d : Slot} (h : Counterpart e d) (x : Byte) : d.output (e.output x) = x := by
  obtain ⟨h1, h2, h3, -, -, h6, -⟩ := h
  rw [Slot.output, Slot.output, h1, h2, h6]
  dsimp only
  rw [(h3 (x + e.offset)).1, BitVec.add_sub_cancel]

/-- The Dec rotor undoes a sequence. -/
theorem Counterpart.transform {e d : Slot} (h : Counterpart e d) (xs : List Byte) :
    (transform d (transform e xs).1).1 = xs := by
  induction xs generalizing e d with
  | nil => rfl
  | cons x xs ih => rw [transform_head, transform_head, h.output, ih h.advance]

end Sys2Proof.Machine
end

