-- ==== Sys2Proof/Laws/Chain.lean ====
section
/-! SUPPORT. The chain: what RUN's checks decide, what one stage does to the buffer and its slot, and what a list of
stages does. -/

namespace Sys2Proof.Machine

/-! ### Searches -/

theorem State.getElem?_slots {s : State} {k : Nat} (h : k < s.nr) : s.slots[k]? = some (s.slotAt k) := by
  have h' : k < s.slots.length := h
  simp [State.slotAt, List.getD, h']

/-- `firstMismatch` finds the lowest index whose VALID is wrong, or none. -/
theorem firstMismatch_eq_none {n k : Nat} {sls : List Slot} :
    firstMismatch n k sls = none ↔ ∀ i sl, sls[i]? = some sl → sl.valid = decide (k + i < n) := by
  induction sls generalizing k with
  | nil => simp [firstMismatch]
  | cons sl sls ih =>
    rw [firstMismatch]
    split
    · next h =>
      refine iff_of_false (by simp) fun hall => ?_
      have := hall 0 sl (by simp)
      simp [this] at h
    · next h =>
      rw [ih]
      constructor
      · intro hall i sl' hi
        cases i with
        | zero =>
          obtain rfl : sl = sl' := by simpa using hi
          simpa using h
        | succ i => rw [hall i sl' (by simpa using hi)]; congr 1; simp only [eq_iff_iff]; omega
      · intro hall i sl' hi
        rw [hall (i + 1) sl' (by simpa using hi)]; congr 1; simp only [eq_iff_iff]; omega

theorem firstMismatch_eq_some {n k i : Nat} {sls : List Slot} {sl : Slot} (hi : sls[i]? = some sl)
    (hbad : sl.valid ≠ decide (k + i < n))
    (hlow : ∀ j sl, j < i → sls[j]? = some sl → sl.valid = decide (k + j < n)) :
    firstMismatch n k sls = some (k + i) := by
  induction sls generalizing k i with
  | nil => simp at hi
  | cons sl' sls ih =>
    rw [firstMismatch]
    cases i with
    | zero =>
      obtain rfl : sl' = sl := by simpa using hi
      rw [if_pos (by simpa using hbad)]
      rfl
    | succ i =>
      have h0 := hlow 0 sl' (by omega) (by simp)
      rw [if_neg (by simpa using h0)]
      rw [ih (k := k + 1) (i := i) (by simpa using hi) (by rwa [show k + 1 + i = k + (i + 1) by omega])
        fun j sl hj hsl => by
          rw [show k + 1 + j = k + (j + 1) by omega]
          exact hlow (j + 1) sl (by omega) (by simpa using hsl)]
      congr 1
      omega

/-- `firstWrongDir` finds the lowest index below `n` whose DIR is wrong, or none. -/
theorem firstWrongDir_eq_none {d : Direction} {n k : Nat} {sls : List Slot} :
    firstWrongDir d n k sls = none ↔ ∀ i sl, sls[i]? = some sl → k + i < n → sl.dir = d := by
  induction sls generalizing k with
  | nil => simp [firstWrongDir]
  | cons sl sls ih =>
    rw [firstWrongDir]
    split
    · next h => exact iff_of_false (by simp) fun hall => h.2 (hall 0 sl (by simp) (by simpa using h.1))
    · next h =>
      rw [ih]
      constructor
      · intro hall i sl' hi hn
        cases i with
        | zero =>
          obtain rfl : sl = sl' := by simpa using hi
          by_contra hd
          exact h ⟨by simpa using hn, hd⟩
        | succ i => exact hall i sl' (by simpa using hi) (by omega)
      · intro hall i sl' hi hn
        exact hall (i + 1) sl' (by simpa using hi) (by omega)

theorem firstWrongDir_eq_some {d : Direction} {n k i : Nat} {sls : List Slot} {sl : Slot} (hi : sls[i]? = some sl)
    (hn : k + i < n) (hbad : sl.dir ≠ d) (hlow : ∀ j sl, j < i → sls[j]? = some sl → sl.dir = d) :
    firstWrongDir d n k sls = some (k + i) := by
  induction sls generalizing k i with
  | nil => simp at hi
  | cons sl' sls ih =>
    rw [firstWrongDir]
    cases i with
    | zero =>
      obtain rfl : sl' = sl := by simpa using hi
      rw [if_pos ⟨by simpa using hn, hbad⟩]
      rfl
    | succ i =>
      rw [if_neg fun h => h.2 (hlow 0 sl' (by omega) (by simp))]
      rw [ih (k := k + 1) (i := i) (by simpa using hi) (by omega)
        fun j sl hj hsl => hlow (j + 1) sl (by omega) (by simpa using hsl)]
      congr 1
      omega

/-- RUN's checks pass exactly for a ready chain (42_chain.md R215). -/
theorem State.checkChain_eq_ok {s : State} {dir : BitVec 2} {d : Direction} :
    s.checkChain dir = .ok d ↔ dirOperand dir = some d ∧ s.ChainReady d := by
  unfold State.checkChain State.ChainReady
  rcases hd : dirOperand dir with _ | d'
  · simp
  · by_cases hn : s.chainLen.toNat = 0 ∨ s.nr < s.chainLen.toNat
    · simp only [if_pos hn, reduceCtorEq, false_iff, not_and]
      intro _ h1 h2
      omega
    · simp only [if_neg hn]
      rcases hm : firstMismatch s.chainLen.toNat 0 s.slots with _ | k
      · have hvalid : ∀ k < s.nr, (s.slotAt k).valid = decide (k < s.chainLen.toNat) := fun k hk => by
          simpa using firstMismatch_eq_none.1 hm k _ (State.getElem?_slots hk)
        rcases hw : firstWrongDir d' s.chainLen.toNat 0 s.slots with _ | k
        · have hdir : ∀ k < s.chainLen.toNat, (s.slotAt k).dir = d' := fun k hk =>
            firstWrongDir_eq_none.1 hw k _ (State.getElem?_slots (by omega)) (by omega)
          constructor
          · intro h
            obtain rfl : d' = d := by simpa using h
            exact ⟨rfl, by omega, by omega, hvalid, hdir⟩
          · rintro ⟨h, -⟩
            obtain rfl : d' = d := by simpa using h
            rfl
        · simp only [reduceCtorEq, Option.some.injEq, false_iff, not_and]
          rintro rfl - - - hdir
          rw [firstWrongDir_eq_none.2] at hw
          · simp at hw
          · intro i sl hi hlt
            rw [State.getElem?_slots (by omega)] at hi
            rw [← Option.some.inj hi]
            exact hdir i (by omega)
      · simp only [reduceCtorEq, false_iff, not_and]
        intro _ _ _ hvalid
        rw [firstMismatch_eq_none.2] at hm
        · simp at hm
        · intro i sl hi
          have hlt : i < s.slots.length := (List.getElem?_eq_some_iff.1 hi).1
          rw [State.getElem?_slots hlt] at hi
          rw [← Option.some.inj hi, hvalid i hlt]
          simp

/-! ### One stage -/

theorem runBytes_slot (n a : Nat) (sl : Slot) (m : Memory) : (runBytes n a sl m).1 = sl.advanceBy n := by
  induction n generalizing a sl m with
  | zero => rfl
  | succ n ih => exact ih _ _ _

theorem runBytes_wf {m : Memory} (hm : m.wf = true) (n a : Nat) (sl : Slot) : (runBytes n a sl m).2.wf = true := by
  induction n generalizing a sl m with
  | zero => exact hm
  | succ n ih => exact ih (Memory.wf_write hm _ _) _ _

theorem runBytes_within {m : Memory} {size : Nat} (hm : m.within size = true) (n a : Nat) (h : a + n ≤ size)
    (sl : Slot) : (runBytes n a sl m).2.within size = true := by
  induction n generalizing a sl m with
  | zero => exact hm
  | succ n ih => exact ih (Memory.within_write hm (by omega) _) _ (by omega) _

/-- The buffer after one stage: the addresses of the run hold the slot's output, every other address is as before. -/
theorem runBytes_read {m : Memory} (hm : m.wf = true) (n a : Nat) (sl : Slot) (x : Nat) :
    (runBytes n a sl m).2.read x =
      if a ≤ x ∧ x < a + n then (sl.advanceBy (x - a)).output (m.read x) else m.read x := by
  induction n generalizing a sl m with
  | zero => rw [if_neg (by omega)]; rfl
  | succ n ih =>
    have hw := Memory.wf_write hm a (sl.output (m.read a))
    rw [show runBytes (n + 1) a sl m = runBytes n (a + 1) sl.advance (m.write a (sl.output (m.read a))) from rfl,
      ih hw, Memory.read_write hm]
    by_cases hx : x = a
    · subst hx
      rw [if_neg (by omega), if_pos rfl, if_pos (by omega), Nat.sub_self]
      rfl
    · rw [if_neg hx]
      by_cases hr : a + 1 ≤ x ∧ x < a + 1 + n
      · rw [if_pos hr, if_pos (by omega), show x - a = (x - (a + 1)) + 1 by omega]
        rfl
      · rw [if_neg hr, if_neg (by omega)]

/-- The bytes of the run after one stage are the slot's transform of the bytes before. -/
theorem runBytes_bytesFrom {m : Memory} (hm : m.wf = true) (n a : Nat) (sl : Slot) :
    (runBytes n a sl m).2.bytesFrom a n = (transform sl (m.bytesFrom a n)).1 := by
  apply List.ext_getElem?
  intro i
  rw [transform_getElem?, Memory.getElem?_bytesFrom, Memory.getElem?_bytesFrom]
  split
  · next hi =>
    rw [runBytes_read hm, if_pos (by omega), Nat.add_sub_cancel_left]
    rfl
  · rfl

@[simp] theorem State.runStage_err (s : State) (k : Nat) : (s.runStage k).err = s.err := rfl
@[simp] theorem State.runStage_errCode (s : State) (k : Nat) : (s.runStage k).errCode = s.errCode := rfl
@[simp] theorem State.runStage_errSlot (s : State) (k : Nat) : (s.runStage k).errSlot = s.errSlot := rfl
@[simp] theorem State.runStage_errOp (s : State) (k : Nat) : (s.runStage k).errOp = s.errOp := rfl
@[simp] theorem State.runStage_keyLen (s : State) (k : Nat) : (s.runStage k).keyLen = s.keyLen := rfl
@[simp] theorem State.runStage_period (s : State) (k : Nat) : (s.runStage k).period = s.period := rfl
@[simp] theorem State.runStage_rotStep (s : State) (k : Nat) : (s.runStage k).rotStep = s.rotStep := rfl
@[simp] theorem State.runStage_chainLen (s : State) (k : Nat) : (s.runStage k).chainLen = s.chainLen := rfl
@[simp] theorem State.runStage_bufLen (s : State) (k : Nat) : (s.runStage k).bufLen = s.bufLen := rfl
@[simp] theorem State.runStage_keyBuf (s : State) (k : Nat) : (s.runStage k).keyBuf = s.keyBuf := rfl
@[simp] theorem State.runStage_bufSize (s : State) (k : Nat) : (s.runStage k).bufSize = s.bufSize := rfl
@[simp] theorem State.runStage_rsp (s : State) (k : Nat) : (s.runStage k).rsp = s.rsp := rfl
@[simp] theorem State.runStage_sent (s : State) (k : Nat) : (s.runStage k).sent = s.sent := rfl
@[simp] theorem State.runStage_draw (s : State) (k : Nat) : (s.runStage k).draw = s.draw := rfl
@[simp] theorem State.runStage_pins (s : State) (k : Nat) : (s.runStage k).pins = s.pins := rfl

theorem State.runStage_slots (s : State) (k : Nat) :
    (s.runStage k).slots = s.slots.set k ((s.slotAt k).advanceBy s.bufLen.toNat) := by
  rw [runStage, withBuf_slots, withSlot_slots, runBytes_slot]

@[simp] theorem State.runStage_nr (s : State) (k : Nat) : (s.runStage k).nr = s.nr := by
  rw [State.nr, runStage_slots, List.length_set]; rfl

@[simp] theorem State.runStage_config (s : State) (k : Nat) : (s.runStage k).config = s.config := by
  rw [State.config, runStage_nr, runStage_bufSize]; rfl

theorem State.runStage_buf (s : State) (k : Nat) :
    (s.runStage k).buf = (runBytes s.bufLen.toNat 0 (s.slotAt k) s.buf).2 := rfl

theorem State.runStage_slotAt {s : State} {k : Nat} (h : k < s.nr) (j : Nat) :
    (s.runStage k).slotAt j = if j = k then (s.slotAt k).advanceBy s.bufLen.toNat else s.slotAt j := by
  have hw : (s.runStage k).slotAt j = (s.withSlot k ((s.slotAt k).advanceBy s.bufLen.toNat)).slotAt j := by
    rw [State.slotAt, runStage_slots]; rfl
  rw [hw]
  split
  · next hj => rw [hj, State.withSlot_slotAt_self h]
  · next hj => rw [State.withSlot_slotAt_of_ne hj]

theorem State.runStage_message {s : State} (hm : s.buf.wf = true) (k : Nat) :
    (s.runStage k).message = (transform (s.slotAt k) s.message).1 := runBytes_bytesFrom hm _ _ _

theorem State.runStage_read_above {s : State} (hm : s.buf.wf = true) (k : Nat) {a : Nat} (h : s.bufLen.toNat ≤ a) :
    (s.runStage k).buf.read a = s.buf.read a := by
  rw [runStage_buf, runBytes_read hm, if_neg (by omega)]

theorem State.runStage_wf {s : State} (hm : s.buf.wf = true) (k : Nat) : (s.runStage k).buf.wf = true :=
  runBytes_wf hm _ _ _

/-! ### A list of stages -/

/-- An equation every stage keeps holds of a whole list of stages. -/
theorem State.runStages_induction {P : State → Prop} (h : ∀ s k, P s → P (s.runStage k)) {s : State} (hs : P s)
    (ks : List Nat) : P (s.runStages ks) := by
  induction ks generalizing s with
  | nil => exact hs
  | cons k ks ih => exact ih (h s k hs)

/-- All that a list of stages leaves alone. -/
theorem State.runStages_same (s : State) (ks : List Nat) :
    SameErrorRegs s (s.runStages ks) ∧ SameStaging s (s.runStages ks) ∧ SameChainRegs s (s.runStages ks) ∧
      (s.runStages ks).keyBuf = s.keyBuf ∧ SameOutside s (s.runStages ks) ∧ (s.runStages ks).rsp = s.rsp := by
  refine State.runStages_induction (P := fun t => SameErrorRegs s t ∧ SameStaging s t ∧ SameChainRegs s t ∧
    t.keyBuf = s.keyBuf ∧ SameOutside s t ∧ t.rsp = s.rsp) (fun t k h => ?_) ?_ ks
  · simpa [SameErrorRegs, SameStaging, SameChainRegs, SameOutside] using h
  · simp [SameErrorRegs, SameStaging, SameChainRegs, SameOutside]

theorem State.runStages_wf {s : State} (hm : s.buf.wf = true) (ks : List Nat) : (s.runStages ks).buf.wf = true :=
  State.runStages_induction (P := fun t => t.buf.wf = true) (fun _ k h => State.runStage_wf h k) hm ks

/-- The slots after stages that are all different: each stage's slot is advanced by BUFLEN bytes. -/
theorem State.runStages_slotAt {s : State} {ks : List Nat} (hnd : ks.Nodup) (hks : ∀ k ∈ ks, k < s.nr) (j : Nat) :
    (s.runStages ks).slotAt j = if j ∈ ks then (s.slotAt j).advanceBy s.bufLen.toNat else s.slotAt j := by
  induction ks generalizing s with
  | nil => simp [runStages]
  | cons k ks ih =>
    obtain ⟨hk, hnd'⟩ := List.nodup_cons.1 hnd
    rw [runStages, ih hnd' (fun i hi => by simpa using hks i (by simp [hi]))]
    simp only [runStage_bufLen, runStage_slotAt (hks k (by simp)), List.mem_cons]
    by_cases hj : j = k
    · subst hj; simp [hk]
    · simp [hj]

/-- The message after stages that are all different is the composition of their slots' transforms. -/
theorem State.runStages_message {s : State} (hm : s.buf.wf = true) {ks : List Nat} (hnd : ks.Nodup)
    (hks : ∀ k ∈ ks, k < s.nr) : (s.runStages ks).message = composeStages (ks.map s.slotAt) s.message := by
  induction ks generalizing s with
  | nil => rfl
  | cons k ks ih =>
    obtain ⟨hk, hnd'⟩ := List.nodup_cons.1 hnd
    have hmap : ks.map (s.runStage k).slotAt = ks.map s.slotAt := List.map_congr_left fun j hj => by
      have hne : j ≠ k := fun h => hk (h ▸ hj)
      rw [runStage_slotAt (hks k (by simp)), if_neg hne]
    rw [runStages, ih (runStage_wf hm k) hnd' (fun i hi => by simpa using hks i (by simp [hi])), hmap,
      runStage_message hm]
    rfl

/-- Bytes of BUF at or above BUFLEN are untouched (42_chain.md R221). -/
theorem State.runStages_read_above {s : State} (hm : s.buf.wf = true) (ks : List Nat) {a : Nat}
    (h : s.bufLen.toNat ≤ a) : (s.runStages ks).buf.read a = s.buf.read a := by
  induction ks generalizing s with
  | nil => rfl
  | cons k ks ih => rw [runStages, ih (runStage_wf hm k) (by simpa using h), runStage_read_above hm k h]

theorem mem_stageOrder {d : Direction} {n k : Nat} : k ∈ stageOrder d n ↔ k < n := by
  cases d <;> simp [stageOrder]

theorem nodup_stageOrder (d : Direction) (n : Nat) : (stageOrder d n).Nodup := by
  cases d <;> simp [stageOrder, List.nodup_range]

/-! ### A whole RUN -/

/-- The slots after a RUN over a chain that fits NR. -/
theorem State.runChain_slotAt {s : State} (h : s.chainLen.toNat ≤ s.nr) (d : Direction) (k : Nat) :
    (s.runChain d).slotAt k =
      if k < s.chainLen.toNat then (s.slotAt k).advanceBy s.bufLen.toNat else s.slotAt k := by
  rw [runChain, State.runStages_slotAt (nodup_stageOrder _ _) fun k hk => by rw [mem_stageOrder] at hk; omega]
  simp only [mem_stageOrder]

/-- The message after a RUN is the composition of the stages. -/
theorem State.runChain_message {s : State} (h : s.chainLen.toNat ≤ s.nr) (hm : s.buf.wf = true) (d : Direction) :
    (s.runChain d).message = composeStages (s.stageSlots d) s.message :=
  State.runStages_message hm (nodup_stageOrder _ _) fun k hk => by rw [mem_stageOrder] at hk; omega

/-- A RUN leaves the bytes of BUF at or above BUFLEN. -/
theorem State.runChain_read_above {s : State} (hm : s.buf.wf = true) (d : Direction) {a : Nat}
    (h : s.bufLen.toNat ≤ a) : (s.runChain d).buf.read a = s.buf.read a :=
  State.runStages_read_above hm _ h

theorem State.runChain_wf {s : State} (hm : s.buf.wf = true) (d : Direction) : (s.runChain d).buf.wf = true :=
  State.runStages_wf hm _

/-- All that a RUN leaves alone. -/
theorem State.runChain_same (s : State) (d : Direction) :
    SameErrorRegs s (s.runChain d) ∧ SameStaging s (s.runChain d) ∧ SameChainRegs s (s.runChain d) ∧
      (s.runChain d).keyBuf = s.keyBuf ∧ SameOutside s (s.runChain d) ∧ (s.runChain d).rsp = s.rsp :=
  State.runStages_same _ _

/-- The composition over a concatenation: the later part meets slots already advanced. -/
theorem composeStages_append (sls : List Slot) (xs ys : List Byte) :
    composeStages sls (xs ++ ys) =
      composeStages sls xs ++ composeStages (sls.map fun sl => sl.advanceBy xs.length) ys := by
  induction sls generalizing xs ys with
  | nil => rfl
  | cons sl sls ih =>
    simp only [composeStages, List.map_cons]
    rw [transform_append, ih, transform_slot, length_transform]

end Sys2Proof.Machine
end

