-- ==== Sys2Proof/Laws/Encoding.lean ====
section
/-! SUPPORT. The encoding, bit by bit: the tools a proof about `encode` and `decode` needs. -/

namespace Sys2Proof

/-- Two words are equal when all their bits are. -/
theorem word_ext {x y : Word} (h : ∀ i < 32, x.getLsbD i = y.getLsbD i) : x = y := BitVec.eq_of_getLsbD_eq h

/-- The bits of the word of a command. -/
theorem getLsbD_encode (i : Instr) (k : Nat) :
    (encode i).getLsbD k = if k < 24 then i.operandBits.getLsbD k else i.opcode.getLsbD (k - 24) := by
  rw [encode, BitVec.getLsbD_append]

/-- The opcode field of the word of a command is its opcode. -/
theorem opField_encode (i : Instr) : opField (encode i) = i.opcode := by
  apply BitVec.eq_of_getLsbD_eq
  intro k hk
  rw [opField, BitVec.getLsbD_extractLsb', getLsbD_encode, if_neg (by omega), Nat.add_sub_cancel_left]
  simp [hk]

/-- A word matches its own row when the row's masked bits agree. -/
theorem matchRow_eq_ok {mask pattern w : Word} {i j : Instr} :
    matchRow mask pattern w i = .ok j ↔ w &&& mask = pattern ∧ i = j := by
  unfold matchRow
  split <;> simp_all

end Sys2Proof
end

