-- ==== Sys2Proof/Laws/Exec.lean ====
section
/-! SUPPORT. The answers a command can give, and the one inversion lemma of `exec`: whatever a command answers, it is a
success with the command's own effect, an error of its own, or a refusal in the ERROR state. -/

namespace Sys2Proof.Machine

/-! ### Unchanged is reflexive -/

theorem SameErrorRegs.refl (s : State) : SameErrorRegs s s := ⟨rfl, rfl, rfl, rfl⟩
theorem SameStaging.refl (s : State) : SameStaging s s := ⟨rfl, rfl, rfl⟩
theorem SameChainRegs.refl (s : State) : SameChainRegs s s := ⟨rfl, rfl⟩
theorem SameKeyBuf.refl (s : State) : SameKeyBuf s s := fun _ => rfl
theorem SameBuf.refl (s : State) : SameBuf s s := fun _ => rfl
theorem SameSlotRegs.refl (x : Slot) : SameSlotRegs x x := ⟨rfl, rfl, rfl, rfl, rfl, rfl, rfl⟩
theorem SamePerm.refl (x : Slot) : SamePerm x x := fun _ => rfl
theorem SameOutside.refl (s : State) : SameOutside s s := ⟨rfl, rfl, rfl, rfl⟩

/-- Slots that read the same are unchanged. -/
theorem SameSlotsBut.of_slotAt {ks : List Nat} {s t : State} (h : ∀ k, k ∉ ks → t.slotAt k = s.slotAt k) :
    SameSlotsBut ks s t := fun k hk => by rw [h k hk]; exact ⟨.refl _, .refl _⟩

theorem SameSlots.of_slotAt {s t : State} (h : ∀ k, t.slotAt k = s.slotAt k) : SameSlots s t :=
  SameSlotsBut.of_slotAt fun k _ => h k

/-- Driving a response changes nothing else. -/
theorem State.withRsp_sameButRsp (s : State) (r : Response) : SameButRsp s (s.withRsp r) :=
  ⟨.refl s, .refl s, .refl s, .refl s, .refl s, .of_slotAt fun _ => rfl, .refl s⟩

/-! ### The shared answers -/

/-- The state after an error is taken. -/
def State.errorTaken (s : State) (kind : ErrorKind) (slot op : BitVec 8) : State :=
  (s.withErrorRegs true kind.code slot op).withRsp (Response.failure kind.code)

theorem raiseError_eq (kind : ErrorKind) (slot op : BitVec 8) (s : State) :
    raiseError kind slot op s = .next (s.errorTaken kind slot op) := rfl

/-- Taking an error does what R290 says and nothing else. -/
theorem State.errorTaken_spec (s : State) (kind : ErrorKind) (slot op : BitVec 8) :
    ErrorTaken kind slot op s (s.errorTaken kind slot op) :=
  ⟨rfl, rfl, rfl, rfl, rfl, .refl s, .refl s, .refl s, .refl s, .of_slotAt fun _ => rfl, .refl s⟩

theorem respond_eq (data : Word) (s : State) : respond data s = .next (s.withRsp (Response.success data)) := rfl

theorem whenNoError_of_noErr {s : State} (h : s.err = false) (body : State → Host.Outcome State Fault Refusal) :
    whenNoError body s = body s := by simp [whenNoError, h]

theorem whenNoError_of_err {s : State} (h : s.err = true) (body : State → Host.Outcome State Fault Refusal) :
    whenNoError body s = .next (s.withRsp (Response.failure s.errCode)) := by
  simp [whenNoError, h, refuseInError]

/-! ### One equation per command that succeeds -/

theorem exec_nop (s : State) : exec .nop s = .next (s.withRsp (.success 0#32)) := rfl

theorem exec_reset (s : State) : exec .reset s = .next ((s.afterReset s.draw).withRsp (.success 0#32)) := rfl

theorem exec_keywr {s : State} (h : s.err = false) (idx byte : BitVec 8) :
    exec (.keywr idx byte) s = .next ((s.withKeyBuf (s.keyBuf.write idx.toNat byte)).withRsp (.success 0#32)) := by
  rw [exec, execKeywr, whenNoError_of_noErr h]
  rfl

theorem exec_keylen {s : State} (h : s.err = false) (v9 : BitVec 9) :
    exec (.keylen v9) s = .next ((s.withKeyLen v9).withRsp (.success 0#32)) := by
  rw [exec, execKeylen, whenNoError_of_noErr h]
  rfl

theorem exec_keyrd {s : State} (h : s.err = false) (v8 : BitVec 8) :
    exec (.keyrd v8) s = .next (s.withRsp (.success ((s.keyBuf.read v8.toNat).setWidth 32))) := by
  rw [exec, execKeyrd, whenNoError_of_noErr h]
  rfl

theorem exec_perlo {s : State} (h : s.err = false) (v16 : BitVec 16) :
    exec (.perlo v16) s = .next ((s.withPeriod (replaceLow s.period v16)).withRsp (.success 0#32)) := by
  rw [exec, execPerlo, whenNoError_of_noErr h]
  rfl

theorem exec_perhi {s : State} (h : s.err = false) (v16 : BitVec 16) :
    exec (.perhi v16) s = .next ((s.withPeriod (replaceHigh s.period v16)).withRsp (.success 0#32)) := by
  rw [exec, execPerhi, whenNoError_of_noErr h]
  rfl

theorem exec_step {s : State} (h : s.err = false) (v8 : BitVec 8) :
    exec (.step v8) s = .next ((s.withRotStep v8).withRsp (.success 0#32)) := by
  rw [exec, execStep, whenNoError_of_noErr h]
  rfl

theorem exec_chlen {s : State} (h : s.err = false) (v9 : BitVec 9) :
    exec (.chlen v9) s = .next ((s.withChainLen v9).withRsp (.success 0#32)) := by
  rw [exec, execChlen, whenNoError_of_noErr h]
  rfl

theorem exec_build {s : State} (h : s.err = false) {slot : BitVec 8} {dir : BitVec 2} {d : Direction}
    (hc : s.checkBuild slot dir = .ok d) :
    exec (.build slot dir) s = .next ((s.withSlot slot.toNat (s.builtSlot d)).withRsp (.success 0#32)) := by
  rw [exec, execBuild, whenNoError_of_noErr h, hc]
  rfl

theorem exec_build_error {s : State} (h : s.err = false) {slot : BitVec 8} {dir : BitVec 2} {kind : ErrorKind}
    (hc : s.checkBuild slot dir = .error kind) :
    exec (.build slot dir) s = .next (s.errorTaken kind slot 0x07#8) := by
  rw [exec, execBuild, whenNoError_of_noErr h, hc]
  rfl

theorem exec_run {s : State} (h : s.err = false) {dir : BitVec 2} {d : Direction} (hc : s.checkChain dir = .ok d) :
    exec (.run dir) s = .next ((s.runChain d).withRsp (.success 0#32)) := by
  rw [exec, execRun, whenNoError_of_noErr h, hc]
  rfl

theorem exec_run_error {s : State} (h : s.err = false) {dir : BitVec 2} {e : ErrorKind × BitVec 8}
    (hc : s.checkChain dir = .error e) : exec (.run dir) s = .next (s.errorTaken e.1 e.2 0x0C#8) := by
  rw [exec, execRun, whenNoError_of_noErr h, hc]
  rfl

theorem exec_buflen {s : State} (h : s.err = false) (v17 : BitVec 17) :
    exec (.buflen v17) s =
      if v17.toNat ≤ s.bufSize then .next ((s.withBufLen v17).withRsp (.success 0#32))
      else .next (s.errorTaken .outOfRange 0#8 0x09#8) := by
  rw [exec, execBuflen, whenNoError_of_noErr h, State.lengthInRange]
  by_cases hr : v17.toNat ≤ s.bufSize <;> simp [hr] <;> rfl

theorem exec_bufwr {s : State} (h : s.err = false) (addr : BitVec 16) (byte : BitVec 8) :
    exec (.bufwr addr byte) s =
      if addr.toNat < s.bufSize then .next ((s.withBuf (s.buf.write addr.toNat byte)).withRsp (.success 0#32))
      else .next (s.errorTaken .outOfRange 0#8 0x0A#8) := by
  rw [exec, execBufwr, whenNoError_of_noErr h, State.addrInRange]
  by_cases hr : addr.toNat < s.bufSize <;> simp [hr] <;> rfl

theorem exec_bufrd {s : State} (h : s.err = false) (addr : BitVec 16) :
    exec (.bufrd addr) s =
      if addr.toNat < s.bufSize then .next (s.withRsp (.success ((s.buf.read addr.toNat).setWidth 32)))
      else .next (s.errorTaken .outOfRange 0#8 0x0B#8) := by
  rw [exec, execBufrd, whenNoError_of_noErr h, State.addrInRange]
  by_cases hr : addr.toNat < s.bufSize <;> simp [hr] <;> rfl

theorem exec_permrd {s : State} (h : s.err = false) (slot i8 : BitVec 8) :
    exec (.permrd slot i8) s =
      if slot.toNat < s.nr then
        .next (s.withRsp (.success (((s.slotAt slot.toNat).perm.read i8.toNat).setWidth 32)))
      else .next (s.errorTaken .outOfRange slot 0x0D#8) := by
  rw [exec, execPermrd, whenNoError_of_noErr h, State.slotInRange]
  by_cases hr : slot.toNat < s.nr <;> simp [hr] <;> rfl

theorem exec_regrd {s : State} {slot sel : BitVec 8} {v : Word} (h : s.readRegister slot sel = .ok v) :
    exec (.regrd slot sel) s = .next (s.withRsp (.success v)) := by
  rw [exec, execRegrd, h]
  rfl

/-! ### What `exec` can answer -/

/-- The effect of a command that succeeds: the state it leaves, but for the response. -/
def Effect : Instr → State → State → Prop
  | .nop, s, t => t = s
  | .keywr idx byte, s, t => t = s.withKeyBuf (s.keyBuf.write idx.toNat byte)
  | .keylen v9, s, t => t = s.withKeyLen v9
  | .keyrd _, s, t => t = s
  | .perlo v16, s, t => t = s.withPeriod (replaceLow s.period v16)
  | .perhi v16, s, t => t = s.withPeriod (replaceHigh s.period v16)
  | .step v8, s, t => t = s.withRotStep v8
  | .build slot dir, s, t => ∃ d, s.checkBuild slot dir = .ok d ∧ t = s.withSlot slot.toNat (s.builtSlot d)
  | .chlen v9, s, t => t = s.withChainLen v9
  | .buflen v17, s, t => s.lengthInRange v17 = true ∧ t = s.withBufLen v17
  | .bufwr addr byte, s, t => s.addrInRange addr = true ∧ t = s.withBuf (s.buf.write addr.toNat byte)
  | .bufrd addr, s, t => s.addrInRange addr = true ∧ t = s
  | .run dir, s, t => ∃ d, s.checkChain dir = .ok d ∧ t = s.runChain d
  | .permrd slot _, s, t => s.slotInRange slot = true ∧ t = s
  | .regrd slot i8, s, t => (∃ v, s.readRegister slot i8 = .ok v) ∧ t = s
  | .reset, s, t => t = s.afterReset s.draw

/-- The command is a read: its response carries data (30_encoding.md R101). -/
def IsRead (i : Instr) : Prop :=
  i.mnemonic = "KEYRD" ∨ i.mnemonic = "BUFRD" ∨ i.mnemonic = "PERMRD" ∨ i.mnemonic = "REGRD"

/-- The three ways `exec` can answer. -/
inductive Answer (i : Instr) (s : State) : State → Prop where
  | success (t : State) (data : Word) (h : Effect i s t) (hd : data ≠ 0 → IsRead i)
      (he : s.err = true → i = .nop ∨ i = .reset ∨ ∃ slot sel, i = .regrd slot sel ∧ ∃ v, s.readRegister slot sel = .ok v) :
      Answer i s (t.withRsp (Response.success data))
  | error (kind : ErrorKind) (slot : BitVec 8) (hk : kind ≠ .ioFailure) (he : s.err = false) :
      Answer i s (s.errorTaken kind slot i.opcode)
  | refused (he : s.err = true) (hn : i ≠ .nop ∧ i ≠ .reset)
      (hr : ∀ slot sel, i = .regrd slot sel → ∀ v, s.readRegister slot sel ≠ .ok v) :
      Answer i s (s.withRsp (Response.failure s.errCode))

/-- The errors of `readRegister`. -/
theorem State.readRegister_error {s : State} {slot sel : BitVec 8} {e : ErrorKind × BitVec 8}
    (h : s.readRegister slot sel = .error e) : e.1 = .illegalCommand ∨ e.1 = .outOfRange := by
  unfold State.readRegister at h
  split at h
  · split at h
    · simp at h
    · rw [← Except.error.inj h]; exact .inl rfl
  · split at h
    · split at h
      · simp at h
      · rw [← Except.error.inj h]; exact .inr rfl
    · rw [← Except.error.inj h]; exact .inl rfl

theorem State.checkBuild_error {s : State} {slot : BitVec 8} {dir : BitVec 2} {kind : ErrorKind}
    (h : s.checkBuild slot dir = .error kind) : kind ≠ .ioFailure := by
  unfold State.checkBuild at h
  split at h
  · rw [← Except.error.inj h]; decide
  · split at h
    · rw [← Except.error.inj h]; decide
    · split at h
      · rw [← Except.error.inj h]; decide
      · split at h
        · rw [← Except.error.inj h]; decide
        · simp at h

theorem State.checkChain_error {s : State} {dir : BitVec 2} {e : ErrorKind × BitVec 8}
    (h : s.checkChain dir = .error e) : e.1 ≠ .ioFailure := by
  unfold State.checkChain at h
  split at h
  · rw [← Except.error.inj h]; decide
  · split at h
    · rw [← Except.error.inj h]; decide
    · split at h
      · rw [← Except.error.inj h]; simp
      · split at h
        · rw [← Except.error.inj h]; simp
        · simp at h

/-- Every command answers a next state, in one of the three ways. -/
theorem exec_answer (i : Instr) (s : State) : ∃ t, exec i s = .next t ∧ Answer i s t := by
  have gate : ∀ body : State → Host.Outcome State Fault Refusal,
      (s.err = true → i ≠ .nop ∧ i ≠ .reset) →
      (s.err = true → ∀ slot sel, i = .regrd slot sel → ∀ v, s.readRegister slot sel ≠ .ok v) →
      (s.err = false → ∃ t, body s = .next t ∧ Answer i s t) →
      ∃ t, whenNoError body s = .next t ∧ Answer i s t := fun body hn hr hb => by
    cases he : s.err with
    | true => exact ⟨_, whenNoError_of_err he body, .refused he (hn he) (hr he)⟩
    | false => rw [whenNoError_of_noErr he]; exact hb he
  have quiet : ∀ t : State, Effect i s t → s.err = false →
      ∃ u, respond 0#32 t = .next u ∧ Answer i s u := fun t ht he =>
    ⟨_, rfl, .success t 0#32 ht (fun h => absurd rfl h) fun h => by simp [he] at h⟩
  have read : ∀ v : Word, Effect i s s → IsRead i → s.err = false →
      ∃ u, respond v s = .next u ∧ Answer i s u := fun v ht hi he =>
    ⟨_, rfl, .success s v ht (fun _ => hi) fun h => by simp [he] at h⟩
  cases i with
  | nop => exact ⟨_, rfl, .success s 0#32 rfl (fun h => absurd rfl h) fun _ => .inl rfl⟩
  | keywr idx byte =>
    rw [exec, execKeywr]
    exact gate _ (by simp) (by simp) fun he => quiet _ rfl he
  | keylen v9 =>
    rw [exec, execKeylen]
    exact gate _ (by simp) (by simp) fun he => quiet _ rfl he
  | keyrd v8 =>
    rw [exec, execKeyrd]
    exact gate _ (by simp) (by simp) fun he => read _ rfl (.inl rfl) he
  | perlo v16 =>
    rw [exec, execPerlo]
    exact gate _ (by simp) (by simp) fun he => quiet _ rfl he
  | perhi v16 =>
    rw [exec, execPerhi]
    exact gate _ (by simp) (by simp) fun he => quiet _ rfl he
  | step v8 =>
    rw [exec, execStep]
    exact gate _ (by simp) (by simp) fun he => quiet _ rfl he
  | build slot dir =>
    rw [exec, execBuild]
    refine gate _ (by simp) (by simp) fun he => ?_
    rcases hc : s.checkBuild slot dir with kind | d
    · exact ⟨_, rfl, .error kind slot (State.checkBuild_error hc) he⟩
    · exact quiet _ ⟨d, hc, rfl⟩ he
  | chlen v9 =>
    rw [exec, execChlen]
    exact gate _ (by simp) (by simp) fun he => quiet _ rfl he
  | buflen v17 =>
    rw [exec, execBuflen]
    refine gate _ (by simp) (by simp) fun he => ?_
    by_cases hr : s.lengthInRange v17 = true
    · rw [if_pos hr]; exact quiet _ ⟨hr, rfl⟩ he
    · rw [if_neg hr]; exact ⟨_, rfl, .error .outOfRange 0#8 (by decide) he⟩
  | bufwr addr byte =>
    rw [exec, execBufwr]
    refine gate _ (by simp) (by simp) fun he => ?_
    by_cases hr : s.addrInRange addr = true
    · rw [if_pos hr]; exact quiet _ ⟨hr, rfl⟩ he
    · rw [if_neg hr]; exact ⟨_, rfl, .error .outOfRange 0#8 (by decide) he⟩
  | bufrd addr =>
    rw [exec, execBufrd]
    refine gate _ (by simp) (by simp) fun he => ?_
    by_cases hr : s.addrInRange addr = true
    · rw [if_pos hr]; exact read _ ⟨hr, rfl⟩ (.inr (.inl rfl)) he
    · rw [if_neg hr]; exact ⟨_, rfl, .error .outOfRange 0#8 (by decide) he⟩
  | run dir =>
    rw [exec, execRun]
    refine gate _ (by simp) (by simp) fun he => ?_
    rcases hc : s.checkChain dir with e | d
    · exact ⟨_, rfl, .error e.1 e.2 (State.checkChain_error hc) he⟩
    · exact quiet _ ⟨d, hc, rfl⟩ he
  | permrd slot i8 =>
    rw [exec, execPermrd]
    refine gate _ (by simp) (by simp) fun he => ?_
    by_cases hr : s.slotInRange slot = true
    · rw [if_pos hr]; exact read _ ⟨hr, rfl⟩ (.inr (.inr (.inl rfl))) he
    · rw [if_neg hr]; exact ⟨_, rfl, .error .outOfRange slot (by decide) he⟩
  | regrd slot i8 =>
    simp only [exec, execRegrd]
    rcases hc : s.readRegister slot i8 with e | v
    · refine gate _ (by simp) (fun _ slot' sel' h v => ?_) fun he => ?_
      · obtain ⟨rfl, rfl⟩ := Instr.regrd.inj h
        simp [hc]
      · refine ⟨_, rfl, .error e.1 e.2 ?_ he⟩
        rcases State.readRegister_error hc with h | h <;> simp [h]
    · exact ⟨_, rfl, .success s v ⟨⟨v, hc⟩, rfl⟩ (fun _ => .inr (.inr (.inr rfl)))
        fun _ => .inr (.inr ⟨slot, i8, rfl, v, hc⟩)⟩
  | reset => exact ⟨_, rfl, .success _ 0#32 rfl (fun h => absurd rfl h) fun _ => .inr (.inl rfl)⟩

/-- In the ERROR state a command that the gate covers is refused (60_exceptions.md R292). -/
theorem exec_in_error {i : Instr} {s : State} (h : s.err = true) (hn : i ≠ .nop) (hr : i ≠ .reset)
    (hrd : ∀ slot sel, i = .regrd slot sel → ∀ v, s.readRegister slot sel ≠ .ok v) :
    exec i s = .next (s.withRsp (Response.failure s.errCode)) := by
  obtain ⟨t, ht, ha⟩ := exec_answer i s
  cases ha with
  | success t data _ _ he =>
    rcases he h with rfl | rfl | ⟨slot, sel, rfl, v, hv⟩
    · exact absurd rfl hn
    · exact absurd rfl hr
    · exact absurd hv (hrd slot sel rfl v)
  | error _ _ _ he => simp [h] at he
  | refused => exact ht

/-- THE INVERSION OF `exec`: whatever state a command answers, it is one of the three answers. -/
theorem exec_cases {i : Instr} {s t : State} (h : exec i s = .next t) : Answer i s t := by
  obtain ⟨u, hu, ha⟩ := exec_answer i s
  rw [h] at hu
  rwa [Host.Outcome.next.inj hu]

end Sys2Proof.Machine
end

