-- ==== Sys2Proof/Laws/PerInstr.lean ====
section
/-! SUPPORT. Per-instruction family TableRow: the word of every command matches the row of the opcode map that carries
its mnemonic (30_encoding.md R109), so its reserved bits are zero (R102). -/

namespace Sys2Proof.Laws.TableRow

/-- The word of `i` matches the row of its own mnemonic. -/
def Statement (i : Instr) : Prop := ∃ r ∈ opcodeTable, r.mnemonic = i.mnemonic ∧ r.matches (encode i) = true

/-- A row that stands in the table, with the right mnemonic, and whose masked bits are its pattern bit by bit. -/
theorem of_row {i : Instr} {m p : Word} (hr : OpcodeRow.mk i.mnemonic p m ∈ opcodeTable)
    (h : ∀ k < 32, ((if k < 24 then i.operandBits.getLsbD k else i.opcode.getLsbD (k - 24)) && m.getLsbD k) =
      p.getLsbD k) : Statement i := by
  refine ⟨_, hr, rfl, ?_⟩
  rw [OpcodeRow.matches, beq_iff_eq]
  refine word_ext fun k hk => ?_
  rw [BitVec.getLsbD_and, getLsbD_encode, h k hk]

theorem nop : Statement .nop := by
  refine of_row (p := 0x00000000#32) (m := 0xFFFFFFFF#32) (by simp [opcodeTable, Instr.mnemonic]) fun k hk => ?_
  simp only [Instr.operandBits, Instr.opcode]
  interval_cases k <;> simp

theorem keywr (idx byte : BitVec 8) : Statement (.keywr idx byte) := by
  refine of_row (p := 0x01000000#32) (m := 0xFFFF0000#32) (by simp [opcodeTable, Instr.mnemonic]) fun k hk => ?_
  simp only [Instr.operandBits, Instr.opcode, BitVec.getLsbD_append]
  interval_cases k <;> simp

theorem keylen (v9 : BitVec 9) : Statement (.keylen v9) := by
  refine of_row (p := 0x02000000#32) (m := 0xFFFFFE00#32) (by simp [opcodeTable, Instr.mnemonic]) fun k hk => ?_
  simp only [Instr.operandBits, Instr.opcode, BitVec.getLsbD_append]
  interval_cases k <;> simp

theorem keyrd (v8 : BitVec 8) : Statement (.keyrd v8) := by
  refine of_row (p := 0x03000000#32) (m := 0xFFFFFF00#32) (by simp [opcodeTable, Instr.mnemonic]) fun k hk => ?_
  simp only [Instr.operandBits, Instr.opcode, BitVec.getLsbD_append]
  interval_cases k <;> simp

theorem perlo (v16 : BitVec 16) : Statement (.perlo v16) := by
  refine of_row (p := 0x04000000#32) (m := 0xFFFF0000#32) (by simp [opcodeTable, Instr.mnemonic]) fun k hk => ?_
  simp only [Instr.operandBits, Instr.opcode, BitVec.getLsbD_append]
  interval_cases k <;> simp

theorem perhi (v16 : BitVec 16) : Statement (.perhi v16) := by
  refine of_row (p := 0x05000000#32) (m := 0xFFFF0000#32) (by simp [opcodeTable, Instr.mnemonic]) fun k hk => ?_
  simp only [Instr.operandBits, Instr.opcode, BitVec.getLsbD_append]
  interval_cases k <;> simp

theorem step (v8 : BitVec 8) : Statement (.step v8) := by
  refine of_row (p := 0x06000000#32) (m := 0xFFFFFF00#32) (by simp [opcodeTable, Instr.mnemonic]) fun k hk => ?_
  simp only [Instr.operandBits, Instr.opcode, BitVec.getLsbD_append]
  interval_cases k <;> simp

theorem build (slot : BitVec 8) (dir : BitVec 2) : Statement (.build slot dir) := by
  refine of_row (p := 0x07000000#32) (m := 0xFFFF00FC#32) (by simp [opcodeTable, Instr.mnemonic]) fun k hk => ?_
  simp only [Instr.operandBits, Instr.opcode, BitVec.getLsbD_append]
  interval_cases k <;> simp

theorem chlen (v9 : BitVec 9) : Statement (.chlen v9) := by
  refine of_row (p := 0x08000000#32) (m := 0xFFFFFE00#32) (by simp [opcodeTable, Instr.mnemonic]) fun k hk => ?_
  simp only [Instr.operandBits, Instr.opcode, BitVec.getLsbD_append]
  interval_cases k <;> simp

theorem buflen (v17 : BitVec 17) : Statement (.buflen v17) := by
  refine of_row (p := 0x09000000#32) (m := 0xFFFE0000#32) (by simp [opcodeTable, Instr.mnemonic]) fun k hk => ?_
  simp only [Instr.operandBits, Instr.opcode, BitVec.getLsbD_append]
  interval_cases k <;> simp

theorem bufwr (addr : BitVec 16) (byte : BitVec 8) : Statement (.bufwr addr byte) := by
  refine of_row (p := 0x0A000000#32) (m := 0xFF000000#32) (by simp [opcodeTable, Instr.mnemonic]) fun k hk => ?_
  simp only [Instr.operandBits, Instr.opcode, BitVec.getLsbD_append]
  interval_cases k <;> simp

theorem bufrd (addr : BitVec 16) : Statement (.bufrd addr) := by
  refine of_row (p := 0x0B000000#32) (m := 0xFF0000FF#32) (by simp [opcodeTable, Instr.mnemonic]) fun k hk => ?_
  simp only [Instr.operandBits, Instr.opcode, BitVec.getLsbD_append]
  interval_cases k <;> simp

theorem run (dir : BitVec 2) : Statement (.run dir) := by
  refine of_row (p := 0x0C000000#32) (m := 0xFFFFFFFC#32) (by simp [opcodeTable, Instr.mnemonic]) fun k hk => ?_
  simp only [Instr.operandBits, Instr.opcode, BitVec.getLsbD_append]
  interval_cases k <;> simp

theorem permrd (slot i8 : BitVec 8) : Statement (.permrd slot i8) := by
  refine of_row (p := 0x0D000000#32) (m := 0xFFFF0000#32) (by simp [opcodeTable, Instr.mnemonic]) fun k hk => ?_
  simp only [Instr.operandBits, Instr.opcode, BitVec.getLsbD_append]
  interval_cases k <;> simp

theorem regrd (slot i8 : BitVec 8) : Statement (.regrd slot i8) := by
  refine of_row (p := 0x0E000000#32) (m := 0xFFFF0000#32) (by simp [opcodeTable, Instr.mnemonic]) fun k hk => ?_
  simp only [Instr.operandBits, Instr.opcode, BitVec.getLsbD_append]
  interval_cases k <;> simp

theorem reset : Statement .reset := by
  refine of_row (p := 0x0F000000#32) (m := 0xFFFFFFFF#32) (by simp [opcodeTable, Instr.mnemonic]) fun k hk => ?_
  simp only [Instr.operandBits, Instr.opcode]
  interval_cases k <;> simp

end Sys2Proof.Laws.TableRow
end

