-- ==== Sys2Proof/Laws/Port.lean ====
section
/-! SUPPORT. The inversion lemmas of `acceptCommand` and `step`: what an accepted word and a rising edge can do. -/

namespace Sys2Proof.Machine

/-- THE INVERSION OF `acceptCommand`: an accepted word is a command, an illegal command, or refused. -/
theorem acceptCommand_cases {w : Word} {s t : State} (h : acceptCommand w s = .next t) :
    (∃ i, decode w = .ok i ∧ exec i s = .next t ∧ Answer i s t) ∨
    (∃ e, decode w = .error e ∧ s.err = false ∧ t = s.errorTaken .illegalCommand 0#8 (opField w)) ∨
    (∃ e, decode w = .error e ∧ s.err = true ∧ t = s.withRsp (Response.failure s.errCode)) := by
  unfold acceptCommand at h
  split at h
  · next i hi => exact .inl ⟨i, hi, h, exec_cases h⟩
  · next e hi =>
    cases he : s.err with
    | true =>
      rw [illegalCommand, whenNoError_of_err he] at h
      exact .inr (.inr ⟨e, hi, rfl, (Host.Outcome.next.inj h).symm⟩)
    | false =>
      rw [illegalCommand, whenNoError_of_noErr he] at h
      exact .inr (.inl ⟨e, hi, rfl, (Host.Outcome.next.inj h).symm⟩)

/-- Every accepted word has a next state with a response. -/
theorem acceptCommand_total (w : Word) (s : State) : ∃ t r, acceptCommand w s = .next t ∧ t.rsp = some r := by
  unfold acceptCommand
  split
  · next i h =>
    obtain ⟨t, ht, ha⟩ := exec_answer i s
    cases ha <;> exact ⟨_, _, ht, rfl⟩
  · rw [illegalCommand, whenNoError]
    split <;> exact ⟨_, _, rfl, rfl⟩

/-- THE INVERSION OF `step`: the block waits, is reset, transfers a response, passes an edge, or accepts a word. -/
theorem step_cases {s t : State} (h : step s = .next t) :
    (s.pins = [] ∧ t = s) ∨
    ∃ p ps, s.pins = p :: ps ∧
      ((p.rstN = false ∧ t = (s.withEdge p.draw ps).afterReset p.draw) ∨
       (p.rstN = true ∧ ∃ r, s.rsp = some r ∧ p.rspReady = true ∧ t = (s.withEdge p.draw ps).transfer r) ∨
       (p.rstN = true ∧ t = s.withEdge p.draw ps) ∨
       (p.rstN = true ∧ s.rsp = none ∧ p.cmdValid = true ∧
        acceptCommand p.cmdData (s.withEdge p.draw ps) = .next t)) := by
  unfold step at h
  split at h
  · next hp => exact .inl ⟨hp, (Host.Outcome.next.inj h).symm⟩
  · next p ps hp =>
    refine .inr ⟨p, ps, hp, ?_⟩
    unfold portEdge at h
    split at h
    · next hr => exact .inl ⟨by simpa using hr, (Host.Outcome.next.inj h).symm⟩
    · next hr =>
      have hr : p.rstN = true := by simpa using hr
      split at h
      · next r hs =>
        split at h
        · next hd => exact .inr (.inl ⟨hr, r, hs, hd, (Host.Outcome.next.inj h).symm⟩)
        · exact .inr (.inr (.inl ⟨hr, (Host.Outcome.next.inj h).symm⟩))
      · next hn =>
        split at h
        · next hv => exact .inr (.inr (.inr ⟨hr, hn, hv, h⟩))
        · exact .inr (.inr (.inl ⟨hr, (Host.Outcome.next.inj h).symm⟩))

end Sys2Proof.Machine
end

