-- ==== Sys2Proof/Laws/WellFormed.lean ====
section
/-! SUPPORT. Well-formed slots and states: what a reset, a BUILD and a transformed byte keep. -/

namespace Sys2Proof.Machine

/-- A slot of the block after reset is well formed, whatever PERM it drew. -/
theorem Slot.blank_wf {m : Memory} (h : m.wf = true ∧ m.within 256 = true) : ({ Slot.blank with perm := m } : Slot).Wf :=
  ⟨h, fun h => by simp [Slot.blank] at h, fun h => by simp [Slot.blank] at h, fun _ => ⟨rfl, rfl, rfl, rfl, rfl, rfl⟩⟩

/-- The table of a built slot is a bijection (10_state.md R43). -/
theorem State.builtSlot_bijection (s : State) (d : Direction) : (s.builtSlot d).perm.Bijection := by
  have ht := isTable_rotorTable d s.stagedKey
  refine ⟨fun x y hxy => ?_, fun y => ?_⟩
  · rw [State.builtSlot_perm_read _ _ x.isLt, State.builtSlot_perm_read _ _ y.isLt] at hxy
    exact BitVec.eq_of_toNat_eq (ht.2 x.toNat y.toNat x.isLt y.isLt hxy)
  · obtain ⟨x, hx⟩ := ht.exists_index y
    exact ⟨x, by rw [State.builtSlot_perm_read _ _ x.isLt]; exact hx⟩

/-- A slot built with a legal PERIOD is well formed. -/
theorem State.builtSlot_wf {s : State} (h : legalPeriod s.period = true) (d : Direction) : (s.builtSlot d).Wf := by
  refine ⟨⟨Memory.wf_ofBytes _ _, Memory.within_ofBytes _ _⟩, fun _ => s.builtSlot_bijection d, fun _ => ?_,
    fun h => by simp [State.builtSlot] at h⟩
  have := (legalPeriod_iff _).1 h
  rw [State.builtSlot_period h]
  show 0 < _
  omega

/-- A fresh slot obeys the rotation law at no bytes. -/
theorem State.builtSlot_rotationLaw (s : State) (d : Direction) : (s.builtSlot d).RotationLaw :=
  ⟨0, by simp [State.builtSlot]⟩

/-- One byte keeps a VALID slot well formed. -/
theorem Slot.advance_wf {sl : Slot} (h : sl.Wf) (hv : sl.valid = true) : sl.advance.Wf := by
  refine ⟨by simpa using h.perm, fun _ => by simpa using h.bijection hv, fun _ => ?_, fun h => by simp [hv] at h⟩
  have hp := h.phase hv
  have hl := sl.period.isLt
  have hone : (1 : BitVec 31).toNat = 1 := rfl
  rw [Slot.advance_phase, Slot.advance_period]
  split
  · show 0 < _
    omega
  · rw [BitVec.toNat_add, hone]
    omega

theorem Slot.advanceBy_wf {sl : Slot} (h : sl.Wf) (hv : sl.valid = true) (n : Nat) : (sl.advanceBy n).Wf := by
  induction n with
  | zero => exact h
  | succ n ih => rw [Slot.advanceBy_succ]; exact Slot.advance_wf ih (by simpa using hv)

/-- Every slot of the block is `SLOT[k]` for some `k < NR`. -/
theorem State.exists_slotAt {s : State} {sl : Slot} (h : sl ∈ s.slots) : ∃ k < s.nr, sl = s.slotAt k := by
  obtain ⟨k, hk, rfl⟩ := List.getElem_of_mem h
  exact ⟨k, hk, by simp [State.slotAt, List.getD, hk]⟩

/-- A reset keeps a state well formed. -/
theorem State.afterReset_wf {s : State} (h : s.Wf) (d : MemoryDraw) : (s.afterReset d).Wf := by
  refine ⟨by simpa using h.config, ⟨Memory.wf_ofBytes _ _, Memory.within_ofBytes _ _⟩,
    ⟨Memory.wf_ofBytes _ _, Memory.within_ofBytes _ _⟩, by simp, fun sl hsl => ?_, fun _ => ⟨rfl, rfl, rfl⟩, by simp,
    by simp⟩
  simp only [State.afterReset_slots, resetSlots, List.mem_map] at hsl
  obtain ⟨k, _, rfl⟩ := hsl
  exact Slot.blank_wf ⟨Memory.wf_ofBytes _ _, Memory.within_ofBytes _ _⟩

end Sys2Proof.Machine
end

