-- ==== Sys2Proof/Tests/Slice0.lean ====
section
/-! SUPPORT. The model's own tests: ill-formed source lines, the words of 30_encoding.md's vectors, one small step per
command with the results the spec's vectors print, and a witness for the hypotheses of each statement. -/

namespace Sys2Proof.Tests

open Sys2Proof Sys2Proof.Machine

/-! ### Ill-formed source lines: one for each check (30_encoding.md R114, R115) -/

theorem test_refuses_keywr_index : assemble (.keywr 256 0) = none := by decide
theorem test_refuses_keywr_byte : assemble (.keywr 0 256) = none := by decide
theorem test_refuses_keylen : assemble (.keylen 512) = none := by decide
theorem test_refuses_keyrd : assemble (.keyrd 256) = none := by decide
theorem test_refuses_perlo : assemble (.perlo 65536) = none := by decide
theorem test_refuses_perhi : assemble (.perhi 65536) = none := by decide
theorem test_refuses_step : assemble (.step 256) = none := by decide
theorem test_refuses_build_slot : assemble (.build 256 0) = none := by decide
theorem test_refuses_build_dir : assemble (.build 0 4) = none := by decide
theorem test_refuses_chlen : assemble (.chlen 512) = none := by decide
theorem test_refuses_buflen : assemble (.buflen 131072) = none := by decide
theorem test_refuses_bufwr_addr : assemble (.bufwr 65536 0) = none := by decide
theorem test_refuses_bufwr_byte : assemble (.bufwr 0 256) = none := by decide
theorem test_refuses_bufrd : assemble (.bufrd 65536) = none := by decide
theorem test_refuses_run : assemble (.run 4) = none := by decide
theorem test_refuses_permrd_slot : assemble (.permrd 256 0) = none := by decide
theorem test_refuses_permrd_index : assemble (.permrd 0 256) = none := by decide
theorem test_refuses_regrd_slot : assemble (.regrd 256 0) = none := by decide
theorem test_refuses_regrd_sel : assemble (.regrd 0 256) = none := by decide
theorem test_refuses_setperiod_high : assemble (.setPeriod (2 ^ 32)) = none := by decide
theorem test_refuses_setperiod_low : assemble (.setPeriod (-(2 ^ 31) - 1)) = none := by decide
theorem test_refuses_loadkey_byte : assemble (.loadKey [1, 256]) = none := by decide
theorem test_refuses_rotor_slot : assemble (.rotor 256 0 [1] 1 1) = none := by decide
theorem test_refuses_rotor_dir : assemble (.rotor 0 4 [1] 1 1) = none := by decide
theorem test_refuses_rotor_key : assemble (.rotor 0 0 [256] 1 1) = none := by decide
theorem test_refuses_rotor_period : assemble (.rotor 0 0 [1] (2 ^ 32) 1) = none := by decide
theorem test_refuses_loadbuf_byte : assemble (.loadBuf 0 [256]) = none := by decide
theorem test_refuses_loadbuf_end : assemble (.loadBuf 65535 [1, 2]) = none := by decide
/-- The model's choice (log entry 14): an empty LOADBUF or READBUF at 65536 is accepted, above it refused. -/
theorem test_empty_loadbuf_readbuf : assemble (.loadBuf 65536 []) = some [] ∧ assemble (.loadBuf 65537 []) = none ∧
    assemble (.readBuf 65536 0) = some [] ∧ assemble (.readBuf 65537 0) = none := by decide
theorem test_refuses_readbuf_end : assemble (.readBuf 65535 2) = none := by decide

/-! ### Decoding: the words of V-E1, and of V-E2 which match no row -/

theorem test_decode_nop : decode 0x00000000#32 = .ok .nop := by decide
theorem test_decode_keywr : decode 0x01000259#32 = .ok (.keywr 2#8 0x59#8) := by decide
theorem test_decode_keylen : decode 0x02000100#32 = .ok (.keylen 256#9) := by decide
theorem test_decode_keyrd : decode 0x03000001#32 = .ok (.keyrd 1#8) := by decide
theorem test_decode_perlo : decode 0x0400FFFF#32 = .ok (.perlo 0xFFFF#16) := by decide
theorem test_decode_perhi : decode 0x05007FFF#32 = .ok (.perhi 0x7FFF#16) := by decide
theorem test_decode_step : decode 0x060000FF#32 = .ok (.step 255#8) := by decide
theorem test_decode_build : decode 0x07000201#32 = .ok (.build 2#8 1#2) := by decide
theorem test_decode_chlen : decode 0x08000002#32 = .ok (.chlen 2#9) := by decide
theorem test_decode_buflen : decode 0x09010000#32 = .ok (.buflen 65536#17) := by decide
theorem test_decode_bufwr : decode 0x0A012348#32 = .ok (.bufwr 0x0123#16 0x48#8) := by decide
theorem test_decode_bufrd : decode 0x0B03E700#32 = .ok (.bufrd 999#16) := by decide
theorem test_decode_run : decode 0x0C000001#32 = .ok (.run 1#2) := by decide
theorem test_decode_permrd : decode 0x0D0000FF#32 = .ok (.permrd 0#8 255#8) := by decide
theorem test_decode_regrd : decode 0x0E000113#32 = .ok (.regrd 1#8 0x13#8) := by decide
theorem test_decode_reset : decode 0x0F000000#32 = .ok .reset := by decide

theorem test_decode_reserved_opcodes :
    decode 0x10000000#32 = .error .reservedOpcode ∧ decode 0xFF000000#32 = .error .reservedOpcode := by decide

theorem test_decode_reserved_bit_nop : decode 0x00000001#32 = .error .reservedBit := by decide
theorem test_decode_reserved_bit_build : decode 0x07000204#32 = .error .reservedBit := by decide
theorem test_decode_reserved_bit_keylen : decode 0x02000200#32 = .error .reservedBit := by decide
theorem test_decode_reserved_bit_run : decode 0x0C000004#32 = .error .reservedBit := by decide
theorem test_decode_reserved_bit_bufrd : decode 0x0B000001#32 = .error .reservedBit := by decide
theorem test_decode_reserved_bit_buflen : decode 0x09020000#32 = .error .reservedBit := by decide
theorem test_decode_reserved_bit_reset : decode 0x0F000001#32 = .error .reservedBit := by decide

theorem test_decodeTableWord : decodeTableWord 32 0x0A012348 = some (.bufwr 0x0123#16 0x48#8) ∧
    decodeTableWord 32 0x10000000 = none := by decide

/-! ### The assembler (30_encoding.md R115, R116) -/

theorem test_setperiod_minus_one :
    (assemble (.setPeriod (-1))).map (List.map encode) = some [0x0400FFFF#32, 0x0500FFFF#32] := by decide
theorem test_setstep_minus_one : (assemble (.setStep (-1))).map (List.map encode) = some [0x060000FF#32] := by decide
theorem test_loadkey : (assemble (.loadKey [0x4B, 0x45, 0x59])).map (List.map encode) =
    some [0x0100004B#32, 0x01000145#32, 0x01000259#32, 0x02000003#32] := by decide
theorem test_loadbuf : (assemble (.loadBuf 0 [0x48, 0x45])).map (List.map encode) =
    some [0x0A000048#32, 0x0A000145#32] := by decide
theorem test_readbuf : (assemble (.readBuf 998 2)).map (List.map encode) = some [0x0B03E600#32, 0x0B03E700#32] := by
  decide
theorem test_rotor : (assemble (.rotor 1 0 [0x42, 0x42] 5 7)).map (List.map encode) =
    some [0x01000042#32, 0x01000142#32, 0x02000002#32, 0x04000005#32, 0x05000000#32, 0x06000007#32, 0x07000100#32] := by
  decide

/-! ### Small states -/

/-- The state a command leaves. -/
def after (i : Instr) (s : State) : State := (execAll [i] s).getD State.reset

/-- The response a command leaves. -/
def answer (i : Instr) (s : State) : Option Response := (after i s).rsp

/-- "KEY", period 3, step 1 staged (the staging of V-KS5). -/
def staged : State :=
  { State.reset with keyBuf := [(0, 0x4B#8), (1, 0x45#8), (2, 0x59#8)], keyLen := 3, period := 3, rotStep := 1 }

/-- The ERROR state of V-H3 and V-H4: `BUILD 1, ENC` has failed with InvalidRotationPeriod. -/
def failed : State := { staged with period := 0, err := true, errCode := 2, errSlot := 1, errOp := 0x07 }

/-- The entries 69, 72 and 77 of `S_KEY` (V-KS2), enough for a byte or two of V-R1. -/
def scrap (d : Direction) : Slot :=
  { Slot.blank with
    valid := true, dir := d, perm := [(69, 175#8), (72, 159#8), (77, 8#8)], period := 3, rotStep := 1 }

/-- The identity table in a slot. -/
def plain (d : Direction) : Slot := { scrap d with perm := Memory.ofBytes 256 identityTable }

/-- A chain of one slot with a two-byte message "HE". -/
def chained (sl : Slot) : State :=
  { (staged.withSlot 0 sl) with chainLen := 1, bufLen := 2, buf := [(0, 0x48#8), (1, 0x45#8)] }

/-- A one-edge host. -/
def atEdge (s : State) (p : PortInput) : State := { s with pins := [p] }

/-! ### One step per command -/

theorem test_nop_in_error_state : answer .nop failed = some ⟨true, 0, 0⟩ := by decide
theorem test_keywr : (after (.keywr 2 0x59) State.reset).keyBuf.read 2 = 0x59 ∧
    (after (.keywr 2 0x59) State.reset).keyBuf.read 1 = 0 := by decide
theorem test_keylen_above_buffer : (after (.keylen 511) State.reset).keyLen = 511 := by decide
theorem test_keyrd : answer (.keyrd 1) staged = some ⟨true, 0, 0x45⟩ := by decide
theorem test_perlo_keeps_high : (after (.perlo 3) { staged with period := 0x00010000 }).period = 0x00010003 := by decide
theorem test_perhi_keeps_low : (after (.perhi 0x8000) staged).period = 0x80000003 := by decide
theorem test_step : (after (.step 255) staged).rotStep = 255 := by decide
/-- V-KS1. -/
theorem test_build_enc : ((after (.build 0 0) staged).slotAt 0).perm.read 72 = 159 := by decide +kernel
/-- V-KS1: six iterations of the schedule, the last of which swaps `S[5]` with `S[225]`. -/
theorem test_key_schedule_loop : (keyScheduleLoop staged.stagedKey 6 0 0 identityTable).getD 5 0 = 225 := by
  decide +kernel
/-- By hand: the inverse of the reversed identity, at index 255's value, which a gapped inverse would leave unset. -/
theorem test_inverse_reaches_index_255 : (inverseTable identityTable.reverse).getD 0 0 = 255 := by decide +kernel
theorem test_build_dec_registers : ((after (.build 7 1) staged).slotAt 7).dir = .dec ∧
    ((after (.build 7 1) staged).slotAt 7).valid = true ∧ ((after (.build 7 1) staged).slotAt 7).period = 3 := by decide
theorem test_chlen : (after (.chlen 511) staged).chainLen = 511 := by decide
theorem test_buflen_limit : answer (.buflen 65536) State.reset = some ⟨true, 0, 0⟩ ∧
    (after (.buflen 65537) State.reset).statusWord = 0x00090071 := by decide
theorem test_bufwr_limit : (after (.bufwr 1000 1) { State.reset with bufSize := 1000 }).statusWord = 0x000A0071 := by
  decide
theorem test_bufwr : (after (.bufwr 0x0123 0x48) State.reset).buf = [(0x0123, 0x48#8)] := by decide
theorem test_bufrd : answer (.bufrd 1) (chained (scrap .enc)) = some ⟨true, 0, 0x45⟩ := by decide
/-- V-R1, its first two bytes, and the slot after them. -/
theorem test_run_enc : (after (.run 0) (chained (scrap .enc))).buf = [(0, 0x9F#8), (1, 0xAF#8)] ∧
    ((after (.run 0) (chained (scrap .enc))).slotAt 0).phase = 2 ∧
    ((after (.run 0) (chained (scrap .enc))).slotAt 0).offset = 0 ∧
    ((after (.run 0) (chained (scrap .enc))).slotAt 0).count = 2 := by decide
/-- V-CH7: slot 1 is not VALID. -/
theorem test_run_mismatch : (after (.run 0) { chained (scrap .enc) with chainLen := 2 }).statusWord = 0x000C0141 := by
  decide
theorem test_permrd : answer (.permrd 0 72) (chained (scrap .enc)) = some ⟨true, 0, 159⟩ ∧
    (after (.permrd 8 0) State.reset).statusWord = 0x000D0871 := by decide
theorem test_regrd : answer (.regrd 0 0x10) (chained (scrap .dec)) = some ⟨true, 0, 3⟩ ∧
    answer (.regrd 0 0x00) failed = some ⟨true, 0, 0x00070121⟩ ∧
    answer (.regrd 0 0x20) failed = some ⟨false, 2, 0⟩ := by decide
/-- V-H2: the slot is checked after the selector. -/
theorem test_regrd_errors : (after (.regrd 8 0x13) State.reset).statusWord = 0x000E0871 ∧
    (after (.regrd 8 0x08) State.reset).statusWord = 0x000E0061 ∧
    (after (.regrd 1 0x01) State.reset).statusWord = 0x000E0061 := by decide
theorem test_reset : (after .reset failed).err = false ∧ (after .reset failed).keyLen = 0 := by decide

/-- `KEYLEN 3` is 0x02000003 (30_encoding.md R114): placed by withFetchWord, the very next step runs it. -/
theorem test_step_runs_fetched_word :
    (match step (State.reset.withFetchWord 32 0x02000003) with
      | .next t => t.keyLen.toNat
      | .fault _ => 0
      | .refused _ => 0) = 3 := by decide

/-- V-R1, byte 3: the offset is 1 after the first rotation event. -/
theorem test_rotorStep_enc : rotorStep { scrap .enc with offset := 1 } 0x4C = (0x08, { scrap .enc with
    offset := 1, phase := 1, count := 1 }) := by decide
/-- V-R2, byte 3, with `D_KEY[8] = 77`. -/
theorem test_rotorStep_dec : (rotorStep { scrap .dec with perm := [(8, 77#8)], offset := 1 } 0x08).1 = 0x4C := by decide
/-- V-R1, byte 2: PHASE returns to 0 and OFFSET moves; V-R5: COUNT wraps. -/
theorem test_rotation_event : (rotorStep { scrap .enc with phase := 2, count := 0xFFFFFFFF } 0).2 =
    { scrap .enc with phase := 0, offset := 1, count := 0 } := by decide

/-! ### Witnesses: concrete states and operands that meet the hypotheses of each statement -/

theorem witness_WorkedEncodingsDecode : State.reset.err = false := by decide

theorem witness_DecodeFollowsOpcodeMap : (∃ i, decode 0x0F000000#32 = .ok i) ∧
    (∃ e, decode 0x0F000001#32 = .error e) ∧ ∃ r ∈ opcodeTable, r.matches 0x0F000000#32 = true := by
  refine ⟨⟨.reset, by decide⟩, ⟨.reservedBit, by decide⟩, ⟨"RESET", 0x0F000000#32, 0xFFFFFFFF#32⟩, by decide, by decide⟩

theorem witness_EncodeOfDecode : decode 0x0AFFFFFF#32 = .ok (.bufwr 0xFFFF#16 0xFF#8) := by decide

theorem witness_UndecodableWordRaisesIllegalCommand :
    (∀ r ∈ opcodeTable, r.matches 0x10000000#32 = false) ∧ (∀ r ∈ opcodeTable, r.matches 0x0F000001#32 = false) ∧
    (∃ r ∈ opcodeTable, r.matches 0x0F000000#32 = true) ∧ State.reset.err = false := by decide

theorem witness_AssemblerWordsFollowSyntaxTable : 255 < 2 ^ 8 ∧ 511 < 2 ^ 9 ∧ 65535 < 2 ^ 16 ∧ 3 < 2 ^ 2 ∧
    131071 < 2 ^ 17 := by decide

theorem witness_SetPeriodStagesWholePeriod : State.reset.err = false ∧
    ∀ n ∈ [-(2 ^ 31), 0, 1, 2 ^ 31 - 1, 2 ^ 31, (2 ^ 32 - 1 : Int)], -(2 ^ 31) ≤ n ∧ n < 2 ^ 32 := by decide

theorem witness_LoadKeyStagesKey : staged.err = false ∧ staged.keyBuf.wf = true ∧
    (∀ b ∈ List.replicate 300 255, b < 256) ∧ ∀ b ∈ ([] : List Nat), b < 256 :=
  ⟨by decide, by decide, fun b hb => by rw [List.eq_of_mem_replicate hb]; decide, by simp⟩

theorem witness_StepRunsDecodedCommand :
    (atEdge staged (offerCommand 0x07000000#32 MemoryDraw.zero)).pins = [offerCommand 0x07000000#32 MemoryDraw.zero] ∧
    (offerCommand 0x07000000#32 MemoryDraw.zero).rstN = true ∧ staged.rsp = none ∧
    (offerCommand 0x07000000#32 MemoryDraw.zero).cmdValid = true ∧ decode 0x07000000#32 = .ok (.build 0 0) := by decide

theorem witness_ResponseIsHeldUntilTaken :
    (atEdge (staged.withRsp (.success 5)) (takeResponse MemoryDraw.zero)).pins = [takeResponse MemoryDraw.zero] ∧
    (takeResponse MemoryDraw.zero).rstN = true ∧ (staged.withRsp (.success 5)).rsp = some (.success 5) ∧
    (takeResponse MemoryDraw.zero).rspReady = true ∧ (offerCommand 0#32 MemoryDraw.zero).rspReady = false ∧
    staged.rsp = none ∧ (takeResponse MemoryDraw.zero).cmdValid = false := by decide

theorem witness_EveryEdgeHasNextState : staged.pins = [] ∧
    (atEdge staged (holdReset MemoryDraw.zero)).pins = [holdReset MemoryDraw.zero] := by decide

theorem witness_IdleBlockKeepsItsState :
    (atEdge staged (takeResponse MemoryDraw.zero)).pins = [takeResponse MemoryDraw.zero] ∧
    (takeResponse MemoryDraw.zero).rstN = true ∧ (atEdge staged (takeResponse MemoryDraw.zero)).rsp = none ∧
    (takeResponse MemoryDraw.zero).cmdValid = false := by decide

theorem witness_ResetPinResetsWholeBlock :
    (atEdge failed (holdReset MemoryDraw.zero)).pins = [holdReset MemoryDraw.zero] ∧
    (holdReset MemoryDraw.zero).rstN = false ∧ 7 < failed.nr ∧ 65535 < failed.bufSize := by decide

theorem witness_HostIsServedInOrder :
    ({ staged with pins := hostSends MemoryDraw.zero [0x07000000#32, 0x10000000#32] } : State).rsp = none ∧
    ({ staged with pins := hostSends MemoryDraw.zero [0x07000000#32, 0x10000000#32] } : State).pins =
      hostSends MemoryDraw.zero [0x07000000#32, 0x10000000#32] := by decide

/-- A well-formed state with a VALID slot. -/
def built : State := staged.withSlot 0 (staged.builtSlot .enc)

theorem built_slots {sl : Slot} (h : sl ∈ built.slots) : sl = staged.builtSlot .enc ∨ sl = Slot.blank := by
  rcases List.mem_or_eq_of_mem_set h with h | h
  · exact .inr (List.eq_of_mem_replicate h)
  · exact .inl h

theorem witness_StepKeepsWellFormed : built.Wf ∧ step built = .next built := by
  refine ⟨⟨by decide, by decide, by decide, by decide, fun sl h => ?_, by decide, fun h => ?_, fun r h => ?_⟩, rfl⟩
  · rcases built_slots h with rfl | rfl
    · exact State.builtSlot_wf (by decide) _
    · exact Slot.blank_wf (by decide)
  · simp [built, staged, State.reset] at h
  · simp [built, staged, State.reset] at h

theorem witness_StepKeepsRotationLaw : built.Wf ∧ built.RotationLaw ∧ step built = .next built := by
  refine ⟨witness_StepKeepsWellFormed.1, fun sl h hv => ?_, rfl⟩
  rcases built_slots h with rfl | rfl
  · exact State.builtSlot_rotationLaw _ _
  · simp [Slot.blank] at hv

theorem witness_StepKeepsInstance : ∃ t, step (atEdge staged (offerCommand 0x07000000#32 MemoryDraw.zero)) = .next t :=
  ⟨_, rfl⟩

theorem witness_KeywrStoresOneKeyByte : staged.err = false ∧ staged.keyBuf.wf = true := by decide
theorem witness_KeyrdAnswersKeyByte : staged.err = false := by decide
theorem witness_KeylenStepChlenStoreTheirField : staged.err = false := by decide
theorem witness_PeriodHalvesAreWrittenSeparately : staged.err = false := by decide

theorem witness_KeyScheduleIsBijection : 1 ≤ [0x41#8].length ∧ [0x41#8].length ≤ 256 ∧
    1 ≤ (List.replicate 256 0#8).length ∧ (List.replicate 256 0#8).length ≤ 256 := by
  rw [List.length_replicate]
  decide

theorem witness_KeyScheduleFollowsRecurrence : 1 ≤ [0x41#8].length ∧ [0x41#8].length ≤ 256 := by decide

theorem witness_BuildConstructsRotor : staged.err = false ∧ (7#8).toNat < staged.nr ∧ (0#2).toNat ≤ 1 ∧
    (1#2).toNat ≤ 1 ∧ staged.keyLen ≠ 0 ∧ 0 < staged.period.toInt ∧ 0 < (0x7FFFFFFF#32).toInt ∧
    [0x4B#8, 0x45#8, 0x59#8].length = min staged.keyLen.toNat 256 ∧
    ∀ i < [0x4B#8, 0x45#8, 0x59#8].length, [0x4B#8, 0x45#8, 0x59#8][i]? = some (staged.keyBuf.read i) := by decide

theorem witness_BuildErrorsInOrder : staged.err = false ∧ staged.nr ≤ (8#8).toNat ∧
    ((7#8).toNat < staged.nr ∧ 1 < (2#2).toNat) ∧
    ((7#8).toNat < State.reset.nr ∧ (1#2).toNat ≤ 1 ∧ State.reset.keyLen = 0 ∧ State.reset.err = false) ∧
    (((staged.withPeriod 0).keyLen ≠ 0 ∧ (staged.withPeriod 0).period.toInt ≤ 0) ∧
      (staged.withPeriod 0x80000003).period.toInt ≤ 0) := by decide

theorem witness_BuildReadsOnlyStagedKey :
    let s' : State := { staged with keyBuf := [(0, 0x4B#8), (1, 0x45#8), (2, 0x59#8), (3, 1#8)] }
    staged.err = false ∧ s'.err = false ∧ (0#8).toNat < staged.nr ∧ (7#8).toNat < s'.nr ∧
    min staged.keyLen.toNat 256 = min s'.keyLen.toNat 256 ∧ staged.period = s'.period ∧ staged.rotStep = s'.rotStep ∧
    (∀ a < min staged.keyLen.toNat 256, staged.keyBuf.read a = s'.keyBuf.read a) ∧ (1#2).toNat ≤ 1 ∧
    staged.keyLen ≠ 0 ∧ 0 < staged.period.toInt ∧ (∃ t, exec (.build 0 1) staged = .next t) ∧
    ∃ t', exec (.build 7 1) s' = .next t' := by
  refine ⟨by decide, by decide, by decide, by decide, by decide, by decide, by decide, by decide, by decide, by decide,
    by decide, ?_, ?_⟩
  · obtain ⟨t, h, -⟩ := exec_answer (.build 0 1) staged
    exact ⟨t, h⟩
  · obtain ⟨t, h, -⟩ := exec_answer (.build 7 1) _
    exact ⟨t, h⟩

theorem witness_RotationClosedForm : 0 < staged.period.toInt ∧ [0x48#8, 0x45#8][1]? = some 0x45#8 := by decide
theorem witness_OffsetMovesOncePerPeriod : 0 < staged.period.toInt ∧ ([0#8, 0#8].length + 1) % staged.period.toNat = 0 ∧
    ¬ ([0#8].length + 1) % staged.period.toNat = 0 := by decide
theorem witness_DecryptRotorUndoesEncryptRotor : [1#8, 2#8, 3#8, 4#8].length = [9#8, 8#8, 7#8, 6#8].length := by decide

theorem witness_BuflenChecksBufferSize : State.reset.err = false ∧ (65536#17).toNat ≤ State.reset.bufSize ∧
    State.reset.bufSize < (65537#17).toNat := by decide

/-- BUFSZ 1000, as in V-CH8. -/
def small : State := { staged with bufSize := 1000 }

theorem witness_BufwrStoresOneByte : small.err = false ∧ small.buf.wf = true ∧ (999#16).toNat < small.bufSize ∧
    small.bufSize ≤ (1000#16).toNat := by decide
theorem witness_BufrdAnswersOneByte : small.err = false ∧ (999#16).toNat < small.bufSize ∧
    small.bufSize ≤ (1000#16).toNat := by decide

theorem chained_chainReady {sl : Slot} {d : Direction} (hv : sl.valid = true) (hd : sl.dir = d) :
    (chained sl).ChainReady d := by
  refine ⟨Nat.le_refl 1, show 1 ≤ 8 by decide, fun k hk => ?_, fun k hk => ?_⟩
  · have h8 : k < 8 := hk
    interval_cases k
    · exact hv
    all_goals rfl
  · have h1 : k < 1 := hk
    obtain rfl : k = 0 := by omega
    exact hd

theorem chained_ready (d : Direction) : (chained (plain d)).ChainReady d := chained_chainReady rfl rfl

theorem witness_RunErrorsInOrder : (chained (scrap .enc)).err = false ∧ (chained (scrap .enc)).nr ≤ 256 ∧
    1 < (2#2).toNat ∧ ((0#2).toNat ≤ 1 ∧ State.reset.chainLen.toNat = 0) ∧
    (State.reset.withChainLen 9).nr < (State.reset.withChainLen 9).chainLen.toNat ∧
    (let s := { chained (scrap .enc) with chainLen := 2 }
     1 ≤ s.chainLen.toNat ∧ s.chainLen.toNat ≤ s.nr ∧ 1 < s.nr ∧ (s.slotAt 1).valid ≠ decide (1 < s.chainLen.toNat) ∧
      ∀ j < 1, (s.slotAt j).valid = decide (j < s.chainLen.toNat)) ∧
    (let s := (chained (scrap .enc)).withSlot 7 (scrap .enc)
     7 < s.nr ∧ (s.slotAt 7).valid ≠ decide (7 < s.chainLen.toNat) ∧
      ∀ j < 7, (s.slotAt j).valid = decide (j < s.chainLen.toNat)) ∧
    (let s := { (chained (scrap .enc)).withSlot 1 (scrap .dec) with chainLen := 2 }
     (∀ k < s.nr, (s.slotAt k).valid = decide (k < s.chainLen.toNat)) ∧ 1 < s.chainLen.toNat ∧
      (s.slotAt 1).dir ≠ Direction.enc ∧ ∀ j < 1, (s.slotAt j).dir = Direction.enc) := by decide

theorem witness_RunComposesStages : (chained (plain .dec)).err = false ∧ dirOperand 1#2 = some .dec ∧
    (chained (plain .dec)).ChainReady .dec ∧ (chained (plain .dec)).buf.wf = true :=
  ⟨by decide, by decide, chained_ready _, by decide⟩

theorem witness_RunFrame : (chained (scrap .enc)).buf.wf = true ∧ ∃ t, exec (.run 0) (chained (scrap .enc)) = .next t :=
  ⟨by decide, _, rfl⟩

theorem witness_EmptyRunChangesNothing :
    let s := { chained (scrap .enc) with bufLen := 0 }
    s.err = false ∧ s.bufLen = 0 ∧ s.checkChain 0 = .ok .enc ∧ s.checkChain 1 = .error (.invalidDirection, 0) := by decide

theorem witness_ChunkedRunsEqualOneRun : (chained (plain .enc)).err = false ∧ dirOperand 0#2 = some .enc ∧
    (chained (plain .enc)).ChainReady .enc ∧ (chained (plain .enc)).bufSize ≤ 65536 ∧
    ([1#8, 2#8] ++ [3#8]).length ≤ (chained (plain .enc)).bufSize ∧
    (let m : Memory := [(0, 1#8), (1, 2#8), (2, 3#8), (9, 7#8)]
     m.wf = true ∧ m.bytesFrom 0 ([1#8, 2#8] ++ [3#8]).length = [1#8, 2#8] ++ [3#8] ∧
      m.bytesFrom 0 [1#8, 2#8].length = [1#8, 2#8]) ∧
    (let m : Memory := [(0, 3#8), (1, 8#8)]
     m.wf = true ∧ m.bytesFrom 0 [3#8].length = [3#8]) :=
  ⟨by decide, by decide, chained_ready _, by decide, by decide, by decide, by decide⟩

theorem plain_counterpart : Counterpart (plain .enc) (plain .dec) := by
  have hread : ∀ x : Byte, (Memory.ofBytes 256 identityTable).read x.toNat = x := fun x => by
    rw [Memory.read_ofBytes x.isLt, identityTable, List.getD, List.getElem?_map, List.getElem?_range x.isLt]
    simp
  exact ⟨rfl, rfl, fun x => by simp only [plain, hread, and_self], rfl, rfl, rfl, rfl⟩

theorem chainReady_withBuf {s : State} {d : Direction} (h : s.ChainReady d) (m : Memory) :
    (s.withBuf m).ChainReady d := h

theorem chained_counterparts (m : Memory) : ∀ k < (chained (plain .enc)).chainLen.toNat,
    Counterpart ((chained (plain .enc)).slotAt k) (((chained (plain .dec)).withBuf m).slotAt k) := by
  intro k hk
  have h1 : k < 1 := hk
  obtain rfl : k = 0 := by omega
  exact plain_counterpart

theorem message_withBuf {s u : State} (h : u.bufLen = s.bufLen) : (u.withBuf s.buf).message = s.message := by
  rw [State.message, State.message, State.withBuf_bufLen, State.withBuf_buf, h]

/-- The Dec chain is given the message the Enc chain leaves. -/
theorem witness_DecryptRunUndoesEncryptRun :
    ∃ u : State, (chained (plain .enc)).err = false ∧ u.err = false ∧ (chained (plain .enc)).ChainReady .enc ∧
    u.ChainReady .dec ∧ (chained (plain .enc)).buf.wf = true ∧ u.buf.wf = true ∧
    u.chainLen = (chained (plain .enc)).chainLen ∧ u.bufLen = (chained (plain .enc)).bufLen ∧
    (∀ k < (chained (plain .enc)).chainLen.toNat, Counterpart ((chained (plain .enc)).slotAt k) (u.slotAt k)) ∧
    ∃ t, exec (.run 0) (chained (plain .enc)) = .next t ∧ u.message = t.message := by
  obtain ⟨b, hb⟩ : ∃ b, b = (chained (plain .enc)).runChain .enc := ⟨_, rfl⟩
  have hw : b.buf.wf = true := hb ▸ State.runChain_wf (by decide) _
  have hl : (chained (plain .dec)).bufLen = b.bufLen := by
    rw [hb, ((chained (plain .enc)).runChain_same .enc).2.2.1.2]
    decide
  refine ⟨(chained (plain .dec)).withBuf b.buf, by decide, ?_, chained_ready _, chainReady_withBuf (chained_ready _) _,
    by decide, by simpa using hw, ?_, ?_, chained_counterparts _, b.withRsp (.success 0#32), ?_, ?_⟩
  · rw [State.withBuf_err]; decide
  · rw [State.withBuf_chainLen]; decide
  · rw [State.withBuf_bufLen]; decide
  · rw [hb]
    exact exec_run (by decide) (State.checkChain_eq_ok.2 ⟨by decide, chained_ready .enc⟩)
  · exact message_withBuf hl

theorem witness_PipelinedScheduleEqualsStages : (chained (plain .enc)).err = false ∧ dirOperand 0#2 = some .enc ∧
    (chained (plain .enc)).ChainReady .enc ∧ (chained (plain .enc)).buf.wf = true ∧
    ∃ t, exec (.run 0) (chained (plain .enc)) = .next t := by
  obtain ⟨t, h, -⟩ := exec_answer (.run 0) (chained (plain .enc))
  exact ⟨by decide, by decide, chained_ready _, by decide, t, h⟩

theorem witness_PermrdAnswersTableEntry : staged.err = false ∧ (7#8).toNat < staged.nr ∧ staged.nr ≤ (8#8).toNat := by
  decide

theorem witness_RegrdReadsGlobalRegisters : failed.config.Legal ∧ (0x00#8).toNat ≤ 0x07 ∧ (0x07#8).toNat ≤ 0x07 := by
  decide

theorem witness_RegrdReadsSlotRegisters : (7#8).toNat < failed.nr ∧ 0x10 ≤ (0x10#8).toNat ∧ (0x15#8).toNat ≤ 0x15 := by
  decide

theorem witness_RegrdErrors : staged.err = false ∧ failed.err = true ∧ ((0x07#8).toNat ≤ 0x07 ∧ (1#8) ≠ 0) ∧
    (0x07 < (0x08#8).toNat ∧ (0x0F#8).toNat < 0x10) ∧ 0x15 < (0x16#8).toNat ∧
    (0x10 ≤ (0x10#8).toNat ∧ (0x15#8).toNat ≤ 0x15 ∧ staged.nr ≤ (8#8).toNat) := by decide

theorem witness_ResetCommandResetsBlock : 7 < failed.nr ∧ 65535 < failed.bufSize := by decide

theorem witness_ErrorStateRefusesOtherWords : failed.err = true ∧
    (∀ w ∈ [0x0F000001#32, 0x10000000#32, 0x07000000#32], w ≠ 0x00000000#32 ∧ w ≠ 0x0F000000#32 ∧
      ∀ slot sel, decode w = .ok (.regrd slot sel) → ∀ v, failed.readRegister slot sel ≠ .ok v) ∧
    failed.readRegister 0 0x20 = .error (.illegalCommand, 0) ∧
    decode 0x0E000000#32 = .ok (.regrd 0 0) ∧ failed.readRegister 0 0 = .ok 0x00070121 := by
  refine ⟨by decide, fun w hw => ?_, by decide, by decide, by decide⟩
  simp only [List.mem_cons, List.not_mem_nil, or_false] at hw
  rcases hw with rfl | rfl | rfl <;> refine ⟨by decide, by decide, fun slot sel h => ?_⟩ <;> cases h

theorem witness_OnlyResetLeavesErrorState : failed.err = true ∧
    (∃ t, step (atEdge failed (holdReset MemoryDraw.zero)) = .next t) ∧
    (∃ t, step (atEdge failed (offerCommand 0x0F000000#32 MemoryDraw.zero)) = .next t) ∧
    ∃ t, step (atEdge failed (offerCommand 0x10000000#32 MemoryDraw.zero)) = .next t :=
  ⟨by decide, ⟨_, rfl⟩, ⟨_, rfl⟩, _, rfl⟩

theorem witness_FailedCommandWritesNothing :
    (∃ t r, acceptCommand 0x07000800#32 staged = .next t ∧ t.rsp = some r ∧ r.ok = false ∧ staged.err = false) ∧
    ∃ t r, acceptCommand 0x07000000#32 failed = .next t ∧ t.rsp = some r ∧ r.ok = false ∧ failed.err = true :=
  ⟨⟨_, _, rfl, rfl, rfl, rfl⟩, _, _, rfl, rfl, rfl, rfl⟩

theorem witness_ResponseShape :
    (∃ t, acceptCommand 0x03000001#32 staged = .next t ∧ t.rsp = some ⟨true, 0, 0x45⟩) ∧
    ∃ t, acceptCommand 0x10000000#32 staged = .next t ∧ t.rsp = some ⟨false, 6, 0⟩ :=
  ⟨⟨_, rfl, rfl⟩, _, rfl, rfl⟩

theorem witness_OnlyNamedCommandsWriteEachState :
    (∃ t, exec (.keylen 5) staged = .next t ∧ t.keyLen ≠ staged.keyLen) ∧
    (∃ t, exec (.run 0) (chained (scrap .enc)) = .next t ∧
      (t.slotAt 0).phase ≠ ((chained (scrap .enc)).slotAt 0).phase) ∧ Instr.run 0 ≠ .reset :=
  ⟨⟨_, rfl, by decide⟩, ⟨_, rfl, by decide⟩, by decide⟩

theorem witness_ReadsHaveNoEffectAndWritesRepeat :
    ((Instr.keyrd 1).mnemonic = "KEYRD" ∧ ∃ t, exec (.keyrd 1) staged = .next t ∧ t.rsp = some ⟨true, 0, 0x45⟩) ∧
    ((Instr.bufwr 0 1).mnemonic = "BUFWR" ∧ staged.keyBuf.wf = true ∧ staged.buf.wf = true ∧
      ∃ t, exec (.bufwr 0 1) staged = .next t) :=
  ⟨⟨rfl, _, rfl, rfl⟩, rfl, by decide, by decide, _, rfl⟩

theorem witness_BuiltTablesAreInverseBijections : staged.err = false ∧ (0#8).toNat < staged.nr ∧
    (7#8).toNat < staged.nr ∧ (0#8) ≠ 7#8 ∧ staged.keyLen ≠ 0 ∧ 0 < staged.period.toInt := by decide

end Sys2Proof.Tests
end

section
/-! SUPPORT. NR, BUFSZ, the host's record and the edges to come lie outside every command (00_scope.md R7): no command
touches them, RESET included, and an edge only adds to the record. -/

namespace Sys2Proof.Machine

/-- BUILD and RUN rewrite slots in place and RESET redraws exactly NR of them, so NR stays; no other effect is on
SLOT, BUFSZ or the port. -/
theorem Effect.sameOutside {i : Instr} {s t : State} (h : Effect i s t) : SameOutside s t := by
  cases i with
  | nop | keywr | keylen | keyrd | perlo | perhi | step | chlen => subst h; exact .refl _
  | buflen | bufwr | bufrd | permrd | regrd =>
    obtain ⟨_, rfl⟩ := h
    exact .refl _
  | build slot _ =>
    obtain ⟨d, _, rfl⟩ := h
    exact ⟨s.withSlot_config slot.toNat (s.builtSlot d), rfl, rfl, rfl⟩
  | run _ =>
    obtain ⟨d, _, rfl⟩ := h
    obtain ⟨_, _, _, _, hout, _⟩ := s.runChain_same d
    exact hout
  | reset => subst h; exact ⟨s.afterReset_config s.draw, rfl, rfl, rfl⟩

/-- However a command answers, only its effect could reach outside: errors and refusals write the error registers and
the response alone. -/
theorem Answer.sameOutside {i : Instr} {s t : State} (h : Answer i s t) : SameOutside s t := by
  cases h with
  | success t _ he => exact he.sameOutside
  | error | refused => exact .refl s

theorem acceptCommand_sameOutside {w : Word} {s t : State} (h : acceptCommand w s = .next t) : SameOutside s t := by
  obtain ⟨_, _, _, ha⟩ | ⟨_, _, _, rfl⟩ | ⟨_, _, _, rfl⟩ := acceptCommand_cases h
  · exact ha.sameOutside
  · exact .refl s
  · exact .refl s

/-- Settles O19, by the cases of `step`: only a transfer adds to the host's record, the response transferred. -/
theorem stepKeepsInstance : Obligations.StepKeepsInstance := by
  unfold Obligations.StepKeepsInstance
  intro s t h
  obtain ⟨_, rfl⟩ | ⟨p, ps, _, hedge⟩ := step_cases h
  · exact ⟨rfl, [], by simp⟩
  · obtain ⟨_, rfl⟩ | ⟨_, r, _, _, rfl⟩ | ⟨_, rfl⟩ | ⟨_, _, _, ha⟩ := hedge
    · exact ⟨by simp, [], by simp⟩
    · exact ⟨by simp, [r], by simp⟩
    · exact ⟨by simp, [], by simp⟩
    · obtain ⟨hconfig, hsent, _, _⟩ := acceptCommand_sameOutside ha
      exact ⟨by simpa using hconfig, [], by simpa using hsent⟩

end Sys2Proof.Machine
end

section
/-! SUPPORT. Every step keeps a well-formed state well formed: one rule per update of the state, then the effect of each
command, its answer, an accepted word and a rising edge (10_state.md, 60_exceptions.md R290). -/

namespace Sys2Proof.Machine

/-! ### Well-formedness, update by update: what the new contents must satisfy -/

theorem State.Wf.withSlot {s : State} (h : s.Wf) {k : Nat} {sl : Slot} (hsl : sl.Wf) : (s.withSlot k sl).Wf :=
  { h with
    config := (s.withSlot_config k sl).symm ▸ h.config
    slots := fun x hx => (List.mem_or_eq_of_mem_set hx).elim (h.slots x) fun hx => hx ▸ hsl }

theorem State.Wf.withBuf {s : State} (h : s.Wf) {m : Memory} (hm : m.wf = true ∧ m.within s.bufSize = true) :
    (s.withBuf m).Wf := { h with buf := hm }

theorem State.Wf.withKeyBuf {s : State} (h : s.Wf) {m : Memory} (hm : m.wf = true ∧ m.within 256 = true) :
    (s.withKeyBuf m).Wf := { h with keyBuf := hm }

theorem State.Wf.withBufLen {s : State} (h : s.Wf) {v : BitVec 17} (hv : v.toNat ≤ s.bufSize) :
    (s.withBufLen v).Wf := { h with bufLen := hv }

theorem State.Wf.withSuccess {s : State} (h : s.Wf) (data : Word) : (s.withRsp (.success data)).Wf :=
  { h with rsp := fun _ hr => .inl (Option.some.inj hr ▸ ⟨rfl, rfl⟩) }

theorem State.Wf.withRefusal {s : State} (h : s.Wf) (he : s.err = true) : (s.withRsp (.failure s.errCode)).Wf :=
  { h with rsp := fun _ hr => .inr (Option.some.inj hr ▸ ⟨rfl, rfl, rfl, he⟩) }

theorem State.Wf.errorTaken {s : State} (h : s.Wf) {kind : ErrorKind} (hk : kind ≠ .ioFailure) (slot op : BitVec 8) :
    (s.errorTaken kind slot op).Wf :=
  { h with
    noError := fun he => Bool.noConfusion he
    error := fun _ => ⟨kind, hk, rfl⟩
    rsp := fun _ hr => .inr (Option.some.inj hr ▸ ⟨rfl, rfl, rfl, rfl⟩) }

theorem State.Wf.transfer {s : State} (h : s.Wf) (r : Response) : (s.transfer r).Wf :=
  { h with rsp := fun _ hr => by simp at hr }

theorem State.Wf.withEdge {s : State} (h : s.Wf) (d : MemoryDraw) (ps : List PortInput) : (s.withEdge d ps).Wf :=
  { h with }

/-! ### A whole RUN -/

/-- A stage over a VALID slot: the slot is advanced, and its bytes stay within BUFLEN, hence within BUFSZ. -/
theorem State.Wf.runStage {s : State} (h : s.Wf) {k : Nat} (hk : k < s.nr) (hv : (s.slotAt k).valid = true) :
    (s.runStage k).Wf := by
  have hbuf : (s.runStage k).buf.wf = true ∧ (s.runStage k).buf.within s.bufSize = true :=
    ⟨State.runStage_wf h.buf.1 k, runBytes_within h.buf.2 _ _ (by simpa using h.bufLen) _⟩
  have hslot : (runBytes s.bufLen.toNat 0 (s.slotAt k) s.buf).1.Wf := by
    rw [runBytes_slot]
    exact Slot.advanceBy_wf (h.slots _ (State.slotAt_mem hk)) hv _
  exact (h.withSlot hslot).withBuf hbuf

/-- Stages over VALID slots: a stage keeps every slot VALID, so the stages after it find theirs so. -/
theorem State.Wf.runStages {s : State} (h : s.Wf) {ks : List Nat}
    (hks : ∀ k ∈ ks, k < s.nr ∧ (s.slotAt k).valid = true) : (s.runStages ks).Wf := by
  induction ks generalizing s with
  | nil => exact h
  | cons k ks ih =>
    obtain ⟨hk, hv⟩ := hks k (by simp)
    refine ih (h.runStage hk hv) fun j hj => ?_
    obtain ⟨hjn, hjv⟩ := hks j (by simp [hj])
    refine ⟨by simpa using hjn, ?_⟩
    rw [State.runStage_slotAt hk]
    split
    · simpa using hv
    · exact hjv

theorem State.Wf.runChain {s : State} (h : s.Wf) {d : Direction} (hc : s.ChainReady d) : (s.runChain d).Wf := by
  obtain ⟨_, hn, hvalid, _⟩ := hc
  refine h.runStages fun k hk => ?_
  have hk : k < s.chainLen.toNat := mem_stageOrder.1 hk
  exact ⟨by omega, by simpa [hk] using hvalid k (by omega)⟩

/-! ### Commands, words and edges -/

/-- BUILD goes ahead only for a slot below NR and with a legal staged PERIOD (40_key_schedule.md R150). -/
theorem State.checkBuild_ok {s : State} {slot : BitVec 8} {dir : BitVec 2} {d : Direction}
    (h : s.checkBuild slot dir = .ok d) : slot.toNat < s.nr ∧ legalPeriod s.period = true := by
  unfold State.checkBuild at h
  split at h
  · simp at h
  · next hslot =>
    split at h
    · simp at h
    · split at h
      · simp at h
      · split at h
        · simp at h
        · next hperiod => exact ⟨by simpa [State.slotInRange] using hslot, by simpa using hperiod⟩

/-- Each command's checks are what its update needs: the slot's PERIOD for BUILD, the operand's range for BUFLEN and
BUFWR, the ready chain for RUN. -/
theorem Effect.wf {i : Instr} {s t : State} (h : Effect i s t) (hs : s.Wf) : t.Wf := by
  cases i with
  | nop | keyrd => subst h; exact hs
  | bufrd | permrd | regrd =>
    obtain ⟨_, rfl⟩ := h
    exact hs
  | keylen | perlo | perhi | step | chlen => subst h; exact { hs with }
  | keywr idx byte =>
    subst h
    exact hs.withKeyBuf ⟨Memory.wf_write hs.keyBuf.1 _ _, Memory.within_write hs.keyBuf.2 idx.isLt _⟩
  | build =>
    obtain ⟨d, hc, rfl⟩ := h
    exact hs.withSlot (State.builtSlot_wf (State.checkBuild_ok hc).2 d)
  | buflen =>
    obtain ⟨hv, rfl⟩ := h
    exact hs.withBufLen (of_decide_eq_true hv)
  | bufwr =>
    obtain ⟨ha, rfl⟩ := h
    exact hs.withBuf ⟨Memory.wf_write hs.buf.1 _ _, Memory.within_write hs.buf.2 (of_decide_eq_true ha) _⟩
  | run =>
    obtain ⟨d, hc, rfl⟩ := h
    exact hs.runChain (State.checkChain_eq_ok.1 hc).2
  | reset => subst h; exact State.afterReset_wf hs _

theorem Answer.wf {i : Instr} {s t : State} (h : Answer i s t) (hs : s.Wf) : t.Wf := by
  cases h with
  | success u data he => exact (he.wf hs).withSuccess data
  | error kind slot hk => exact hs.errorTaken hk slot _
  | refused he => exact hs.withRefusal he

theorem acceptCommand_wf {w : Word} {s t : State} (h : acceptCommand w s = .next t) (hs : s.Wf) : t.Wf := by
  obtain ⟨_, _, _, ha⟩ | ⟨_, _, _, rfl⟩ | ⟨_, _, he, rfl⟩ := acceptCommand_cases h
  · exact ha.wf hs
  · exact hs.errorTaken (by decide) _ _
  · exact hs.withRefusal he

/-- Settles O17, by the cases of `step`: each edge is a reset, a transfer, a wait or an accepted word, and each keeps
well-formedness by its own rule. -/
theorem stepKeepsWellFormed : Obligations.StepKeepsWellFormed := by
  unfold Obligations.StepKeepsWellFormed
  intro s t hs h
  obtain ⟨_, rfl⟩ | ⟨p, ps, _, hedge⟩ := step_cases h
  · exact hs
  · have hs := hs.withEdge p.draw ps
    obtain ⟨_, rfl⟩ | ⟨_, r, _, _, rfl⟩ | ⟨_, rfl⟩ | ⟨_, _, _, ha⟩ := hedge
    · exact State.afterReset_wf hs p.draw
    · exact hs.transfer r
    · exact hs
    · exact acceptCommand_wf ha hs

end Sys2Proof.Machine
end

section
/-! SUPPORT. What each command writes (10_state.md R33, R40, R52): the registers and memories that change by their own
commands, and the three things that can happen to a slot. -/

namespace Sys2Proof.Machine

/-! ### Registers and memories -/

/-- A register or memory that differs between the states has been written by a command named for it. -/
structure WrittenByName (i : Instr) (s t : State) : Prop where
  keyLen : t.keyLen ≠ s.keyLen → i.mnemonic = "KEYLEN"
  period : t.period ≠ s.period → i.mnemonic = "PERLO" ∨ i.mnemonic = "PERHI"
  rotStep : t.rotStep ≠ s.rotStep → i.mnemonic = "STEP"
  chainLen : t.chainLen ≠ s.chainLen → i.mnemonic = "CHLEN"
  bufLen : t.bufLen ≠ s.bufLen → i.mnemonic = "BUFLEN"
  keyBuf : t.keyBuf ≠ s.keyBuf → i.mnemonic = "KEYWR"
  buf : t.buf ≠ s.buf → i.mnemonic = "BUFWR" ∨ i.mnemonic = "RUN"

theorem WrittenByName.refl (i : Instr) (s : State) : WrittenByName i s s := by
  constructor <;> exact fun h => absurd rfl h

theorem Effect.writtenByName {i : Instr} {s t : State} (h : Effect i s t) (hr : i ≠ .reset) : WrittenByName i s t := by
  cases i with
  | nop | keyrd => subst h; exact .refl _ _
  | bufrd | permrd | regrd =>
    obtain ⟨_, rfl⟩ := h
    exact .refl _ _
  | keywr | keylen | perlo | perhi | step | chlen => subst h; constructor <;> simp [Instr.mnemonic]
  | buflen | bufwr =>
    obtain ⟨_, rfl⟩ := h
    constructor <;> simp [Instr.mnemonic]
  | build =>
    obtain ⟨d, _, rfl⟩ := h
    constructor <;> simp
  | run =>
    obtain ⟨d, _, rfl⟩ := h
    obtain ⟨_, ⟨hkeyLen, hperiod, hrotStep⟩, ⟨hchainLen, hbufLen⟩, hkeyBuf, _, _⟩ := s.runChain_same d
    constructor <;> simp [Instr.mnemonic, *]
  | reset => exact absurd rfl hr

theorem Answer.writtenByName {i : Instr} {s t : State} (h : Answer i s t) (hr : i ≠ .reset) : WrittenByName i s t := by
  cases h with
  | success u _ he => exact { he.writtenByName hr with }
  | error | refused => exact { WrittenByName.refl i s with }

/-! ### Slots -/

/-- What a command other than RESET can leave in `SLOT[k]`: the slot as it was, the rotor that a BUILD of `k`
constructs, or, where `k` is a stage of a RUN, the slot advanced by some bytes. -/
inductive SlotChange (i : Instr) (s : State) (k : Nat) : Slot → Prop where
  | kept : SlotChange i s k (s.slotAt k)
  | built (slot : BitVec 8) (dir : BitVec 2) (hi : i = .build slot dir) (hk : slot.toNat = k) (d : Direction) :
      SlotChange i s k (s.builtSlot d)
  | advanced (hi : i.mnemonic = "RUN") (hk : k < s.chainLen.toNat) (n : Nat) :
      SlotChange i s k ((s.slotAt k).advanceBy n)

theorem Effect.slotChange {i : Instr} {s t : State} (h : Effect i s t) (hr : i ≠ .reset) (k : Nat) :
    SlotChange i s k (t.slotAt k) := by
  cases i with
  | nop | keywr | keylen | keyrd | perlo | perhi | step | chlen => subst h; exact .kept
  | buflen | bufwr | bufrd | permrd | regrd =>
    obtain ⟨_, rfl⟩ := h
    exact .kept
  | build slot dir =>
    obtain ⟨d, hc, rfl⟩ := h
    by_cases hk : k = slot.toNat
    · subst hk
      rw [State.withSlot_slotAt_self (State.checkBuild_ok hc).1]
      exact .built slot dir rfl rfl d
    · rw [State.withSlot_slotAt_of_ne hk]
      exact .kept
  | run =>
    obtain ⟨d, hc, rfl⟩ := h
    obtain ⟨_, _, hn, _, _⟩ := State.checkChain_eq_ok.1 hc
    rw [State.runChain_slotAt hn]
    split
    · next hk => exact .advanced rfl hk _
    · exact .kept
  | reset => exact absurd rfl hr

theorem Answer.slotChange {i : Instr} {s t : State} (h : Answer i s t) (hr : i ≠ .reset) (k : Nat) :
    SlotChange i s k (t.slotAt k) := by
  cases h with
  | success u _ he => exact he.slotChange hr k
  | error | refused => exact .kept

/-- What a BUILD fixes for the life of a rotor changes by a BUILD of that slot alone: a RUN only advances the slot. -/
theorem SlotChange.built_of_ne {i : Instr} {s : State} {k : Nat} {sl : Slot} (h : SlotChange i s k sl)
    (hne : sl.valid ≠ (s.slotAt k).valid ∨ sl.dir ≠ (s.slotAt k).dir ∨ sl.perm ≠ (s.slotAt k).perm ∨
      sl.period ≠ (s.slotAt k).period ∨ sl.rotStep ≠ (s.slotAt k).rotStep) :
    ∃ slot dir, i = .build slot dir ∧ slot.toNat = k := by
  cases h with
  | kept | advanced => simp at hne
  | built slot dir hi hk => exact ⟨slot, dir, hi, hk⟩

/-- A slot that has changed at all was built or was a stage of a RUN. -/
theorem SlotChange.built_or_run_of_ne {i : Instr} {s : State} {k : Nat} {sl : Slot} (h : SlotChange i s k sl)
    (hne : sl ≠ s.slotAt k) :
    (∃ slot dir, i = .build slot dir ∧ slot.toNat = k) ∨ (i.mnemonic = "RUN" ∧ k < s.chainLen.toNat) := by
  cases h with
  | kept => exact absurd rfl hne
  | built slot dir hi hk => exact .inl ⟨slot, dir, hi, hk⟩
  | advanced hi hk => exact .inr ⟨hi, hk⟩

theorem SlotChange.valid {i : Instr} {s : State} {k : Nat} {sl : Slot} (h : SlotChange i s k sl)
    (hv : (s.slotAt k).valid = true) : sl.valid = true := by
  cases h with
  | kept => exact hv
  | built => rfl
  | advanced => simpa using hv

/-- Settles O53: registers and memories by `WrittenByName`, slots by the cases of `SlotChange`. -/
theorem onlyNamedCommandsWriteEachState : Obligations.OnlyNamedCommandsWriteEachState := by
  unfold Obligations.OnlyNamedCommandsWriteEachState
  intro i s t h hr
  have hw := (exec_cases h).writtenByName hr
  have hslot := (exec_cases h).slotChange hr
  refine ⟨hw.keyLen, hw.period, hw.rotStep, hw.chainLen, hw.bufLen, hw.keyBuf, hw.buf,
    fun k => (hslot k).built_of_ne, fun k hne => (hslot k).built_or_run_of_ne fun heq => ?_, fun k => (hslot k).valid⟩
  simp [heq] at hne

end Sys2Proof.Machine
end

section
/-! SUPPORT. The fields of STATUS (10_state.md R34). -/

namespace Sys2Proof.Machine

/-- Settles O47: a field starts above all that STATUS concatenates below it (`extractLsb'_append_eq_of_le`), and what is
left ends in that field (`extractLsb'_append_eq_right`). -/
theorem statusLayout : Obligations.StatusLayout := by
  unfold Obligations.StatusLayout State.statusWord
  intro s
  refine ⟨?err, ?bits3_1, ?errCode, ?errSlot, ?errOp, ?bits31_24⟩
  case err => rw [BitVec.getLsbD_append, if_pos Nat.one_pos, BitVec.getLsbD_ofBool]; rfl
  all_goals simp only [BitVec.extractLsb'_append_eq_of_le, Nat.reduceLeDiff, Nat.reduceSub,
    BitVec.extractLsb'_append_eq_right]
  case bits3_1 | bits31_24 => rfl

end Sys2Proof.Machine
end

section
/-! SUPPORT. The byte-pipelined schedule (20_memory.md R77): passing one byte through all stages splits it off the
stage-by-stage composition, so the two orders give the same bytes and the same slots. -/

namespace Sys2Proof.Machine

theorem composeStages_nil (sls : List Slot) : composeStages sls [] = [] := by
  induction sls with
  | nil => rfl
  | cons _ _ ih => exact ih

/-- The commuting square of the two orders: the first byte goes through every stage on its own, and the other bytes meet
the slots it leaves. -/
theorem composeStages_cons (sls : List Slot) (x : Byte) (xs : List Byte) :
    composeStages sls (x :: xs) = (passByte sls x).1 :: composeStages (passByte sls x).2 xs := by
  induction sls generalizing x xs with
  | nil => rfl
  | cons sl sls ih => exact ih (sl.output x) (transform sl.advance xs).1

theorem passByte_slots (sls : List Slot) (x : Byte) : (passByte sls x).2 = sls.map Slot.advance := by
  induction sls generalizing x with
  | nil => rfl
  | cons sl sls ih => exact congrArg (sl.advance :: ·) (ih (sl.output x))

theorem pipelined_bytes (sls : List Slot) (xs : List Byte) : (pipelined sls xs).1 = composeStages sls xs := by
  induction xs generalizing sls with
  | nil => exact (composeStages_nil sls).symm
  | cons x xs ih => rw [composeStages_cons, ← ih]; rfl

theorem pipelined_slots (sls : List Slot) (xs : List Byte) :
    (pipelined sls xs).2 = sls.map (Slot.advanceBy xs.length) := by
  induction xs generalizing sls with
  | nil => exact (List.map_id sls).symm
  | cons x xs ih =>
    calc (pipelined (passByte sls x).2 xs).2
        = (sls.map Slot.advance).map (Slot.advanceBy xs.length) := by rw [ih, passByte_slots]
      _ = sls.map (Slot.advanceBy (xs.length + 1)) := List.map_map

/-- The slots of the chain after a RUN, in the order it visits them: each is advanced by BUFLEN bytes. -/
theorem State.runChain_stageSlots {s : State} (h : s.chainLen.toNat ≤ s.nr) (d : Direction) :
    (s.runChain d).stageSlots d = (s.stageSlots d).map (Slot.advanceBy s.bufLen.toNat) := by
  obtain ⟨_, _, ⟨hlen, _⟩, _⟩ := s.runChain_same d
  rw [State.stageSlots, State.stageSlots, hlen, List.map_map]
  refine List.map_congr_left fun k hk => ?_
  rw [State.runChain_slotAt h, if_pos (mem_stageOrder.1 hk)]
  rfl

/-- Settles O41: both schedules compose the stages' transforms and advance every stage by BUFLEN bytes. -/
theorem pipelinedScheduleEqualsStages : Obligations.PipelinedScheduleEqualsStages := by
  unfold Obligations.PipelinedScheduleEqualsStages
  intro dir d s t he hd hready hwf h
  rw [exec_run he (State.checkChain_eq_ok.2 ⟨hd, hready⟩)] at h
  obtain rfl := Host.Outcome.next.inj h
  obtain ⟨_, hn, _, _⟩ := hready
  constructor
  · rw [pipelined_bytes]
    exact State.runChain_message hn hwf d
  · rw [pipelined_slots, State.message, Memory.length_bytesFrom]
    exact State.runChain_stageSlots hn d

end Sys2Proof.Machine
end

section
/-! SUPPORT. Commands repeated (20_memory.md R78): no command reads the waiting response, so it remains that a read
leaves the state and that a write stores again what it has stored. -/

namespace Sys2Proof.Machine

/-! ### The waiting response is no input of a command -/

theorem State.runStages_withRsp (s : State) (r : Response) (ks : List Nat) :
    (s.withRsp r).runStages ks = (s.runStages ks).withRsp r := by
  induction ks generalizing s with
  | nil => rfl
  | cons k ks ih => exact ih (s.runStage k)

theorem State.runChain_withRsp (s : State) (r : Response) (d : Direction) :
    (s.withRsp r).runChain d = (s.runChain d).withRsp r := State.runStages_withRsp s r _

/-- A command answers the same whatever response waits: it drives its own over it. -/
theorem exec_withRsp (i : Instr) (s : State) (r : Response) : exec i (s.withRsp r) = exec i s := by
  cases i with
  | run dir =>
    have hcheck : (s.withRsp r).checkChain dir = s.checkChain dir := rfl
    rw [exec, exec, execRun, execRun, whenNoError, whenNoError, State.withRsp_err, hcheck]
    cases s.checkChain dir with
    | error => rfl
    | ok d => simp only [State.runChain_withRsp]; rfl
  | _ => rfl

/-- After an error is taken, every command the gate covers is refused with the response that waits already. -/
theorem exec_errorTaken {i : Instr} (hn : i ≠ .nop) (hr : i ≠ .reset) (hrd : ∀ slot sel, i ≠ .regrd slot sel)
    (s : State) (kind : ErrorKind) (slot op : BitVec 8) :
    exec i (s.errorTaken kind slot op) = .next (s.errorTaken kind slot op) :=
  exec_in_error rfl hn hr fun slot sel h => absurd h (hrd slot sel)

/-! ### Reads -/

theorem Effect.eq_of_isRead {i : Instr} {s t : State} (h : Effect i s t) (hi : IsRead i) : t = s := by
  cases i with
  | keyrd => exact h
  | bufrd | permrd | regrd =>
    obtain ⟨_, ht⟩ := h
    exact ht
  | _ => simp [IsRead, Instr.mnemonic] at hi

/-- A read leaves everything but the error registers and the response, however it answers. -/
theorem Answer.sameButErrorRegs_of_isRead {i : Instr} {s t : State} (h : Answer i s t) (hi : IsRead i) :
    SameButErrorRegs s t := by
  cases h with
  | success u data he =>
    obtain rfl := he.eq_of_isRead hi
    obtain ⟨_, hsame⟩ := u.withRsp_sameButRsp (.success data)
    exact hsame
  | error kind slot =>
    obtain ⟨_, _, _, _, _, hsame⟩ := s.errorTaken_spec kind slot i.opcode
    exact hsame
  | refused =>
    obtain ⟨_, hsame⟩ := s.withRsp_sameButRsp (.failure s.errCode)
    exact hsame

/-- A read that answers ok has changed the response alone. -/
theorem Answer.eq_withRsp_of_isRead {i : Instr} {s t : State} (h : Answer i s t) (hi : IsRead i) :
    ∃ r, t.rsp = some r ∧ (r.ok = true → t = s.withRsp r) := by
  cases h with
  | success u data he =>
    obtain rfl := he.eq_of_isRead hi
    exact ⟨_, rfl, fun _ => rfl⟩
  | error | refused => exact ⟨_, rfl, fun hok => Bool.noConfusion hok⟩

/-! ### Writes -/

/-- The command stores its operand in a register or a memory. -/
def IsWrite (i : Instr) : Prop :=
  i.mnemonic = "KEYWR" ∨ i.mnemonic = "BUFWR" ∨ i.mnemonic = "KEYLEN" ∨ i.mnemonic = "PERLO" ∨
    i.mnemonic = "PERHI" ∨ i.mnemonic = "STEP" ∨ i.mnemonic = "CHLEN" ∨ i.mnemonic = "BUFLEN"

theorem replaceLow_replaceLow (p : Word) (v : BitVec 16) : replaceLow (replaceLow p v) v = replaceLow p v := by
  simp only [replaceLow, BitVec.extractLsb'_append_eq_of_le, Nat.le_refl, Nat.sub_self, BitVec.extractLsb'_eq_self]

theorem replaceHigh_replaceHigh (p : Word) (v : BitVec 16) : replaceHigh (replaceHigh p v) v = replaceHigh p v := by
  simp only [replaceHigh, BitVec.extractLsb'_append_eq_right]

/-- A write answers from the state it has left as it did before: it stores what stands there already. -/
theorem Effect.exec_again {i : Instr} {s t : State} (h : Effect i s t) (hi : IsWrite i) (he : s.err = false)
    (hkey : s.keyBuf.wf = true) (hbuf : s.buf.wf = true) : exec i t = exec i s := by
  cases i with
  | keywr idx byte =>
    subst h
    rw [exec_keywr he, exec_keywr (by exact he), State.withKeyBuf_keyBuf, Memory.write_write_self hkey]
    rfl
  | bufwr addr byte =>
    obtain ⟨ha, rfl⟩ := h
    have ha : addr.toNat < s.bufSize := of_decide_eq_true ha
    rw [exec_bufwr he, exec_bufwr (by exact he), State.withBuf_bufSize, if_pos ha, if_pos ha, State.withBuf_buf,
      Memory.write_write_self hbuf]
    rfl
  | buflen v =>
    obtain ⟨hv, rfl⟩ := h
    have hv : v.toNat ≤ s.bufSize := of_decide_eq_true hv
    rw [exec_buflen he, exec_buflen (by exact he), State.withBufLen_bufSize, if_pos hv, if_pos hv]
    rfl
  | perlo v =>
    subst h
    rw [exec_perlo he, exec_perlo (by exact he), State.withPeriod_period, replaceLow_replaceLow]
    rfl
  | perhi v =>
    subst h
    rw [exec_perhi he, exec_perhi (by exact he), State.withPeriod_period, replaceHigh_replaceHigh]
    rfl
  | keylen v =>
    subst h
    rw [exec_keylen he, exec_keylen (by exact he)]
    rfl
  | step v =>
    subst h
    rw [exec_step he, exec_step (by exact he)]
    rfl
  | chlen v =>
    subst h
    rw [exec_chlen he, exec_chlen (by exact he)]
    rfl
  | _ => simp [IsWrite, Instr.mnemonic] at hi

theorem IsWrite.gated {i : Instr} (hi : IsWrite i) :
    i ≠ .nop ∧ i ≠ .reset ∧ ∀ slot sel, i ≠ .regrd slot sel := by
  refine ⟨?_, ?_, fun slot sel => ?_⟩ <;> rintro rfl <;> simp [IsWrite, Instr.mnemonic] at hi

/-- A write repeated leaves the state it left the first time, response included, however it answers. -/
theorem IsWrite.exec_repeat {i : Instr} {s t : State} (hi : IsWrite i) (hkey : s.keyBuf.wf = true)
    (hbuf : s.buf.wf = true) (h : exec i s = .next t) : exec i t = .next t := by
  obtain ⟨hn, hr, hrd⟩ := hi.gated
  cases exec_cases h with
  | success u data heffect _ hopen =>
    have he : s.err = false := by
      by_contra he
      obtain hi | hi | ⟨slot, sel, hi, _⟩ := hopen (by simpa using he)
      · exact hn hi
      · exact hr hi
      · exact hrd slot sel hi
    rw [exec_withRsp, heffect.exec_again hi he hkey hbuf]
    exact h
  | error kind slot => exact exec_errorTaken hn hr hrd s kind slot _
  | refused => rw [exec_withRsp]; exact h

/-- Settles O54: reads by `Answer.eq_withRsp_of_isRead` and `exec_withRsp`, writes by `IsWrite.exec_repeat`. -/
theorem readsHaveNoEffectAndWritesRepeat : Obligations.ReadsHaveNoEffectAndWritesRepeat := by
  unfold Obligations.ReadsHaveNoEffectAndWritesRepeat
  constructor
  · intro i s t hi h
    refine ⟨(exec_cases h).sameButErrorRegs_of_isRead hi, ?_⟩
    obtain ⟨r, hr, ht⟩ := (exec_cases h).eq_withRsp_of_isRead hi
    refine ⟨r, hr, fun hok => ?_⟩
    obtain rfl := ht hok
    exact ⟨s.withRsp_sameButRsp r, (exec_withRsp i s r).trans h⟩
  · intro i s t hkey hbuf hi h
    exact IsWrite.exec_repeat hi hkey hbuf h

end Sys2Proof.Machine
end

section
/-! SUPPORT. Encoding and decoding are inverse to each other (30_encoding.md R102, R103): a word is cut into its fields,
and each format's fields are read off the word and put back. -/

namespace Sys2Proof

/-! ### Fields of a word -/

/-- Fields that stand side by side are one field. -/
theorem append_fields (w : Word) (start lo hi : Nat) :
    w.extractLsb' (start + lo) hi ++ w.extractLsb' start lo = w.extractLsb' start (hi + lo) :=
  BitVec.extractLsb'_append_extractLsb'_eq_extractLsb' rfl

/-- A word is its opcode field above its 24 operand bits (R100). -/
theorem opField_append_operands (w : Word) : opField w ++ w.extractLsb' 0 24 = w :=
  (append_fields w 0 24 8).trans BitVec.extractLsb'_eq_self

/-- Where the mask is all ones, a word that matches the pattern under the mask has the pattern's bits. -/
theorem extractLsb'_of_masked {w mask pattern : Word} (h : w &&& mask = pattern) {start len : Nat}
    (hmask : mask.extractLsb' start len = BitVec.allOnes len) :
    w.extractLsb' start len = pattern.extractLsb' start len := by
  rw [← h, BitVec.extractLsb'_and, hmask, BitVec.and_allOnes]

/-- Reserved bits that are zero and the field below them are one field. -/
theorem zero_append_field {w : Word} {start lo hi : Nat} (h : w.extractLsb' (start + lo) hi = 0#hi) :
    0#hi ++ w.extractLsb' start lo = w.extractLsb' start (hi + lo) := by
  rw [← h]
  exact append_fields w start lo hi

/-- The operand bits of formats FKB and FSI. -/
theorem zero_append_hi_append_lo {w : Word} (h : w.extractLsb' 16 8 = 0#8) :
    0#8 ++ fieldHi w ++ fieldLo w = w.extractLsb' 0 24 := by
  rw [fieldHi, zero_append_field h]
  exact append_fields w 0 8 16

/-- The operand bits of format FSD. -/
theorem zero_append_hi_append_dir {w : Word} (hhi : w.extractLsb' 16 8 = 0#8) (hlo : w.extractLsb' 2 6 = 0#6) :
    0#8 ++ fieldHi w ++ 0#6 ++ fieldDir w = w.extractLsb' 0 24 := by
  have h : 0#8 ++ fieldHi w ++ 0#6 = w.extractLsb' 2 22 := by
    rw [fieldHi, zero_append_field hhi, ← hlo]
    exact append_fields w 2 6 16
  rw [h]
  exact append_fields w 0 2 22

/-- The operand bits of format FA. -/
theorem addr_append_zero {w : Word} (h : w.extractLsb' 0 8 = 0#8) : fieldAddr w ++ 0#8 = w.extractLsb' 0 24 := by
  rw [← h]
  exact append_fields w 0 8 16

/-! ### Encoding what was decoded -/

/-- A command with the word's opcode and operand bits has that word. -/
theorem encode_of_matchRow {mask pattern w : Word} {i j : Instr} (h : matchRow mask pattern w i = .ok j)
    (hop : (opField w).toNat = i.opcode.toNat)
    (hbits : w &&& mask = pattern → i.operandBits = w.extractLsb' 0 24) : encode j = w := by
  obtain ⟨hm, rfl⟩ := matchRow_eq_ok.1 h
  rw [encode, ← BitVec.eq_of_toNat_eq hop, hbits hm]
  exact opField_append_operands w

/-- Settles O4, by the rows of `decode`: the row's mask leaves no bit of the word outside its fields. -/
theorem encodeOfDecode : Obligations.EncodeOfDecode := by
  unfold Obligations.EncodeOfDecode
  intro w i h
  unfold decode at h
  split at h
  case h_1 hop | h_16 hop =>
    exact encode_of_matchRow h hop fun hm => (extractLsb'_of_masked (start := 0) (len := 24) hm rfl).symm
  case h_2 hop | h_14 hop | h_15 hop =>
    exact encode_of_matchRow h hop fun hm => zero_append_hi_append_lo (extractLsb'_of_masked hm rfl)
  case h_3 hop | h_4 hop | h_5 hop | h_6 hop | h_7 hop | h_9 hop | h_10 hop | h_13 hop =>
    exact encode_of_matchRow h hop fun hm => zero_append_field (extractLsb'_of_masked hm rfl)
  case h_8 hop =>
    exact encode_of_matchRow h hop fun hm =>
      zero_append_hi_append_dir (extractLsb'_of_masked hm rfl) (extractLsb'_of_masked hm rfl)
  case h_11 hop => exact encode_of_matchRow h hop fun _ => append_fields w 0 8 16
  case h_12 hop => exact encode_of_matchRow h hop fun hm => addr_append_zero (extractLsb'_of_masked hm rfl)
  case h_17 => cases h

/-! ### Decoding what was encoded -/

/-- The row that carries a command's mnemonic, whichever command it is. -/
theorem encode_matches_row (i : Instr) : Laws.TableRow.Statement i := by
  cases i with
  | nop => exact Laws.TableRow.nop
  | keywr idx byte => exact Laws.TableRow.keywr idx byte
  | keylen v9 => exact Laws.TableRow.keylen v9
  | keyrd v8 => exact Laws.TableRow.keyrd v8
  | perlo v16 => exact Laws.TableRow.perlo v16
  | perhi v16 => exact Laws.TableRow.perhi v16
  | step v8 => exact Laws.TableRow.step v8
  | build slot dir => exact Laws.TableRow.build slot dir
  | chlen v9 => exact Laws.TableRow.chlen v9
  | buflen v17 => exact Laws.TableRow.buflen v17
  | bufwr addr byte => exact Laws.TableRow.bufwr addr byte
  | bufrd addr => exact Laws.TableRow.bufrd addr
  | run dir => exact Laws.TableRow.run dir
  | permrd slot i8 => exact Laws.TableRow.permrd slot i8
  | regrd slot i8 => exact Laws.TableRow.regrd slot i8
  | reset => exact Laws.TableRow.reset

theorem mnemonics_nodup : (opcodeTable.map OpcodeRow.mnemonic).Nodup := by decide

/-- Under the mask of its mnemonic's row the word of a command is the row's pattern. -/
theorem encode_masked (i : Instr) {mask pattern : Word} (hr : ⟨i.mnemonic, pattern, mask⟩ ∈ opcodeTable) :
    encode i &&& mask = pattern := by
  obtain ⟨r, hmem, hname, hm⟩ := encode_matches_row i
  obtain rfl := List.inj_on_of_nodup_map mnemonics_nodup hmem hr hname
  exact beq_iff_eq.1 hm

/-- A field within the operand bits reads the same in the word. -/
theorem extractLsb'_encode (i : Instr) {start len : Nat} (h : start + len ≤ 24) :
    (encode i).extractLsb' start len = i.operandBits.extractLsb' start len :=
  BitVec.extractLsb'_append_eq_of_add_le h

theorem lowField_encode {i : Instr} {hi lo : Nat} {x : BitVec hi} {y : BitVec lo} (hw : hi + lo = 24)
    (h : i.operandBits = (x ++ y).cast hw) : (encode i).extractLsb' 0 lo = y := by
  rw [extractLsb'_encode i (by omega), h, BitVec.extractLsb'_cast, BitVec.extractLsb'_append_eq_right]

theorem midField_encode {i : Instr} {hi mid lo : Nat} {x : BitVec hi} {y : BitVec mid} {z : BitVec lo}
    (hw : hi + mid + lo = 24) (h : i.operandBits = (x ++ y ++ z).cast hw) : (encode i).extractLsb' lo mid = y := by
  rw [extractLsb'_encode i (by omega), h, BitVec.extractLsb'_cast, BitVec.extractLsb'_append_eq_of_le (Nat.le_refl lo),
    Nat.sub_self, BitVec.extractLsb'_append_eq_right]

theorem highField_encode {i : Instr} {hi lo : Nat} {x : BitVec hi} {y : BitVec lo} (hw : hi + lo = 24)
    (h : i.operandBits = (x ++ y).cast hw) : (encode i).extractLsb' lo hi = x := by
  rw [extractLsb'_encode i (by omega), h, BitVec.extractLsb'_cast, BitVec.extractLsb'_append_eq_left]

/-- In format FSD two fields lie below the slot, the reserved bits and `dir`. -/
theorem fieldHi_encode_build (slot : BitVec 8) (dir : BitVec 2) : fieldHi (encode (.build slot dir)) = slot :=
  calc (encode (.build slot dir)).extractLsb' 8 8
      = (0#8 ++ slot ++ 0#6 ++ dir).extractLsb' 8 8 := extractLsb'_encode _ (by decide)
    _ = (0#8 ++ slot ++ 0#6).extractLsb' 6 8 := BitVec.extractLsb'_append_eq_of_le (by decide)
    _ = (0#8 ++ slot).extractLsb' 0 8 := BitVec.extractLsb'_append_eq_of_le (by decide)
    _ = slot := BitVec.extractLsb'_append_eq_right

/-- Settles O3, by the commands: the opcode selects the command's own row, which its word matches, and each field reads
the operand back. -/
theorem decodeOfEncode : Obligations.DecodeOfEncode := by
  unfold Obligations.DecodeOfEncode decode
  intro i
  rw [opField_encode]
  cases i <;> refine matchRow_eq_ok.2 ⟨encode_masked _ (by simp [opcodeTable, Instr.mnemonic]), ?_⟩
  case nop | reset => rfl
  case keylen | keyrd | perlo | perhi | step | chlen | buflen | run => exact congrArg _ (lowField_encode rfl rfl)
  case keywr | permrd | regrd => exact congrArg₂ _ (midField_encode rfl rfl) (lowField_encode rfl rfl)
  case build => exact congrArg₂ _ (fieldHi_encode_build _ _) (lowField_encode rfl rfl)
  case bufwr => exact congrArg₂ _ (highField_encode rfl rfl) (lowField_encode rfl rfl)
  case bufrd => exact congrArg _ (highField_encode rfl rfl)

/-! ### The opcode map -/

/-- The rows stand in the order of their opcodes, 0x00 to 0x0F (R109). -/
theorem opcodes_eq : opcodeTable.map (fun r => opField r.pattern) = (List.range 16).map (BitVec.ofNat 8) := by decide

theorem exists_row_iff (op : BitVec 8) : (∃ r ∈ opcodeTable, opField r.pattern = op) ↔ op.toNat < 16 := by
  rw [← List.mem_map, opcodes_eq, List.mem_map]
  constructor
  · rintro ⟨k, hk, rfl⟩
    have hk := List.mem_range.1 hk
    rw [BitVec.toNat_ofNat]
    omega
  · exact fun h => ⟨op.toNat, List.mem_range.2 h, by simp⟩

theorem opcodes_nodup : (opcodeTable.map fun r => opField r.pattern).Nodup := by decide

theorem row_eq_of_opcode {r r' : OpcodeRow} (hr : r ∈ opcodeTable) (hr' : r' ∈ opcodeTable)
    (h : opField r.pattern = opField r'.pattern) : r = r' :=
  List.inj_on_of_nodup_map opcodes_nodup hr hr' h

/-- Every mask covers the opcode field. -/
theorem opField_mask : ∀ r ∈ opcodeTable, opField r.mask = BitVec.allOnes 8 := by decide

theorem opField_of_matches {r : OpcodeRow} (hr : r ∈ opcodeTable) {w : Word} (h : r.matches w = true) :
    opField w = opField r.pattern := extractLsb'_of_masked (beq_iff_eq.1 h) (opField_mask r hr)

/-- A word matches at most one row, because the rows' opcodes differ (R110). -/
theorem row_eq_of_matches {r r' : OpcodeRow} (hr : r ∈ opcodeTable) (hr' : r' ∈ opcodeTable) {w : Word}
    (h : r.matches w = true) (h' : r'.matches w = true) : r = r' :=
  row_eq_of_opcode hr hr' ((opField_of_matches hr h).symm.trans (opField_of_matches hr' h'))

theorem matches_of_decode {w : Word} {i : Instr} (h : decode w = .ok i) :
    ∃ r ∈ opcodeTable, r.mnemonic = i.mnemonic ∧ r.matches w = true := by
  rw [← encodeOfDecode w i h]
  exact encode_matches_row i

theorem decode_of_matches {r : OpcodeRow} (hr : r ∈ opcodeTable) {w : Word} (h : r.matches w = true) :
    ∃ i, decode w = .ok i := by
  unfold decode
  rw [opField_of_matches hr h]
  have hm : w &&& r.mask = r.pattern := beq_iff_eq.1 h
  simp only [opcodeTable, List.mem_cons, List.not_mem_nil, or_false] at hr
  rcases hr with rfl | rfl | rfl | rfl | rfl | rfl | rfl | rfl | rfl | rfl | rfl | rfl | rfl | rfl | rfl | rfl <;>
    exact ⟨_, if_pos hm⟩

theorem decode_error_iff {w : Word} : (∃ e, decode w = .error e) ↔ ∀ r ∈ opcodeTable, r.matches w = false := by
  constructor
  · rintro ⟨e, he⟩ r hr
    refine Bool.eq_false_iff.2 fun h => ?_
    obtain ⟨i, hi⟩ := decode_of_matches hr h
    simp [he] at hi
  · intro hnone
    cases h : decode w with
    | error e => exact ⟨e, rfl⟩
    | ok i =>
      obtain ⟨r, hr, _, hm⟩ := matches_of_decode h
      simp [hnone r hr] at hm

/-- Settles O2: `matches_of_decode` one way, `decode_error_iff` the other, and at most one row by
`row_eq_of_matches`. -/
theorem decodeFollowsOpcodeMap : Obligations.DecodeFollowsOpcodeMap := by
  unfold Obligations.DecodeFollowsOpcodeMap
  intro w
  split
  · next i h =>
    obtain ⟨r, hr, hname, hm⟩ := matches_of_decode h
    exact ⟨r, hr, hname, hm, fun r' hr' hm' => row_eq_of_matches hr' hr hm' hm⟩
  · next e h => exact decode_error_iff.1 ⟨e, h⟩

/-- No row's pattern has a bit below its opcode. -/
theorem pattern_operands : ∀ r ∈ opcodeTable, r.pattern &&& 0x00FFFFFF#32 = 0 := by decide

/-- A word of the row's opcode matches the row when its reserved bits are zero (R111). -/
theorem matches_iff_of_opcode {r : OpcodeRow} (hr : r ∈ opcodeTable) {w : Word} (hop : opField r.pattern = opField w) :
    r.matches w = true ↔ w &&& r.mask &&& 0x00FFFFFF#32 = 0 := by
  constructor
  · intro h
    rw [beq_iff_eq.1 h, pattern_operands r hr]
  · intro h
    have htop : opField (w &&& r.mask) = opField r.pattern := by
      rw [hop, opField, BitVec.extractLsb'_and]
      exact (congrArg (opField w &&& ·) (opField_mask r hr)).trans BitVec.and_allOnes
    have hlow : (w &&& r.mask).extractLsb' 0 24 = r.pattern.extractLsb' 0 24 :=
      (extractLsb'_of_masked h rfl).trans (extractLsb'_of_masked (pattern_operands r hr) rfl).symm
    rw [OpcodeRow.matches, beq_iff_eq, ← opField_append_operands (w &&& r.mask), htop, hlow]
    exact opField_append_operands r.pattern

/-- The words of no row: a reserved opcode, or a 1 in a reserved bit (R110, R111). -/
theorem matches_none_iff (w : Word) : (∀ r ∈ opcodeTable, r.matches w = false) ↔
    16 ≤ (opField w).toNat ∨
      ∃ r ∈ opcodeTable, opField r.pattern = opField w ∧ w &&& r.mask &&& 0x00FFFFFF#32 ≠ 0 := by
  constructor
  · intro hnone
    by_cases hop : 16 ≤ (opField w).toNat
    · exact .inl hop
    · obtain ⟨r, hr, hrop⟩ := (exists_row_iff (opField w)).2 (by omega)
      refine .inr ⟨r, hr, hrop, fun hzero => ?_⟩
      simpa [hnone r hr] using (matches_iff_of_opcode hr hrop).2 hzero
  · rintro (hop | ⟨r, hr, hrop, hbit⟩) r' hr' <;> refine Bool.eq_false_iff.2 fun hm => ?_
    · have := (exists_row_iff (opField w)).1 ⟨r', hr', (opField_of_matches hr' hm).symm⟩
      omega
    · obtain rfl := row_eq_of_opcode hr hr' (hrop.trans (opField_of_matches hr' hm))
      exact hbit ((matches_iff_of_opcode hr hrop).1 hm)

end Sys2Proof
end

section
/-! SUPPORT. The assembler's words (30_encoding.md R114): the opcode above the operands, each at its place in the
rule's table. -/

namespace Sys2Proof.Machine

theorem assemble_of_wellFormed {l : Source} (h : l.wellFormed = true) : assemble l = some (expand l) := if_pos h

/-- The word of a command is its opcode's word or-ed with its operand bits (R100). -/
theorem encode_eq_or {i : Instr} {opcodeWord : Word} (hop : opField opcodeWord = i.opcode)
    (hlow : opcodeWord.extractLsb' 0 24 = 0#24) {n : Nat} (hn : i.operandBits.toNat = n) :
    encode i = opcodeWord ||| BitVec.ofNat 32 n := by
  have hlt : n < 2 ^ 32 := hn ▸ Nat.lt_trans i.operandBits.isLt (by decide)
  have happend (y : BitVec 24) : (i.opcode ++ y : Word).toNat = i.opcode.toNat <<< 24 ||| y.toNat :=
    BitVec.toNat_append _ _
  apply BitVec.eq_of_toNat_eq
  rw [← opField_append_operands opcodeWord, hop, hlow, encode, BitVec.toNat_or, happend, happend, BitVec.toNat_zero,
    Nat.or_zero, hn, BitVec.toNat_ofNat, Nat.mod_eq_of_lt hlt]

/-- A line of one command whose operand bits are the number `n`. -/
theorem assemble_word {l : Source} {i : Instr} (hfit : l.wellFormed = true) (hl : expand l = [i]) {opcodeWord : Word}
    (hop : opField opcodeWord = i.opcode) (hlow : opcodeWord.extractLsb' 0 24 = 0#24) {n : Nat}
    (hn : i.operandBits.toNat = n) :
    (assemble l).map (List.map encode) = some [opcodeWord ||| BitVec.ofNat 32 n] := by
  rw [assemble_of_wellFormed hfit, hl, Option.map_some, List.map_singleton, encode_eq_or hop hlow hn]

/-- A line of one command with an operand at bit 8 and one at bit 0. -/
theorem assemble_word_pair {l : Source} {i : Instr} (hfit : l.wellFormed = true) (hl : expand l = [i])
    {opcodeWord : Word} (hop : opField opcodeWord = i.opcode) (hlow : opcodeWord.extractLsb' 0 24 = 0#24) {m n : Nat}
    (hn : i.operandBits.toNat = m * 2 ^ 8 ||| n) :
    (assemble l).map (List.map encode) = some [opcodeWord ||| BitVec.ofNat 32 (m * 2 ^ 8) ||| BitVec.ofNat 32 n] := by
  rw [assemble_word hfit hl hop hlow hn, BitVec.ofNat_or, BitVec.or_assoc]

/-! ### Operands at their places -/

theorem toNat_append_ofNat {hi lo m n : Nat} {x : BitVec hi} (hx : x.toNat = m) (hn : n < 2 ^ lo) :
    (x ++ BitVec.ofNat lo n).toNat = m * 2 ^ lo ||| n := by
  rw [BitVec.toNat_append, hx, Nat.shiftLeft_eq, BitVec.toNat_ofNat, Nat.mod_eq_of_lt hn]

theorem toNat_zero_append {hi lo n : Nat} (h : n < 2 ^ lo) : (0#hi ++ BitVec.ofNat lo n).toNat = n := by
  rw [toNat_append_ofNat (x := 0#hi) BitVec.toNat_zero h, Nat.zero_mul, Nat.zero_or]

theorem toNat_append_zero {hi lo m : Nat} {x : BitVec hi} (hx : x.toNat = m) : (x ++ 0#lo).toNat = m * 2 ^ lo := by
  rw [toNat_append_ofNat hx (Nat.two_pow_pos lo), Nat.or_zero]

/-- In format FSD the reserved bits put the slot at bit 8. -/
theorem toNat_slot_append_dir {slot dir : Nat} (hslot : slot < 2 ^ 8) (hdir : dir < 2 ^ 2) :
    (0#8 ++ BitVec.ofNat 8 slot ++ 0#6 ++ BitVec.ofNat 2 dir).toNat = slot * 2 ^ 8 ||| dir := by
  rw [toNat_append_ofNat (toNat_append_zero (toNat_zero_append hslot)) hdir, Nat.mul_assoc, ← Nat.pow_add]

theorem fits_of_lt {width n : Nat} (h : n < 2 ^ width) : fits width n = true := decide_eq_true h

theorem fits_pair {width width' m n : Nat} (hm : m < 2 ^ width) (hn : n < 2 ^ width') :
    (fits width m && fits width' n) = true := Bool.and_eq_true_iff.2 ⟨fits_of_lt hm, fits_of_lt hn⟩

/-- Settles O6, line by line: the assembled word is the opcode's or-ed with the operand bits, and those are the operands
at their places. -/
theorem assemblerWordsFollowSyntaxTable : Obligations.AssemblerWordsFollowSyntaxTable := by
  unfold Obligations.AssemblerWordsFollowSyntaxTable
  refine ⟨?nop, ?reset, ?keywr, ?keylen, ?keyrd, ?perlo, ?perhi, ?step, ?build, ?chlen, ?buflen, ?bufwr, ?bufrd, ?run,
    ?permrd, ?regrd⟩
  case nop | reset => decide
  case keylen | keyrd | perlo | perhi | step | chlen | buflen | run =>
    intro n hn
    refine assemble_word ?_ rfl rfl rfl ?_
    · exact fits_of_lt hn
    · exact toNat_zero_append hn
  case keywr | permrd | regrd =>
    intro m n hm hn
    refine assemble_word_pair ?_ rfl rfl rfl ?_
    · exact fits_pair hm hn
    · exact toNat_append_ofNat (toNat_zero_append hm) hn
  case build =>
    intro slot dir hslot hdir
    refine assemble_word_pair ?_ rfl rfl rfl ?_
    · exact fits_pair hslot hdir
    · exact toNat_slot_append_dir hslot hdir
  case bufwr =>
    intro addr byte haddr hbyte
    refine assemble_word_pair ?_ rfl rfl rfl ?_
    · exact fits_pair haddr hbyte
    · exact toNat_append_ofNat ((BitVec.toNat_ofNat addr 16).trans (Nat.mod_eq_of_lt haddr)) hbyte
  case bufrd =>
    intro addr haddr
    refine assemble_word ?_ rfl rfl rfl ?_
    · exact fits_of_lt haddr
    · exact toNat_append_zero ((BitVec.toNat_ofNat addr 16).trans (Nat.mod_eq_of_lt haddr))

end Sys2Proof.Machine
end

section
/-! SUPPORT. Words at the port (30_encoding.md R101, R110, R116): what a word of no row does, and the shape of every
response. -/

namespace Sys2Proof.Machine

theorem acceptCommand_of_ok {w : Word} {i : Instr} (h : decode w = .ok i) (s : State) :
    acceptCommand w s = exec i s := by
  rw [acceptCommand, h]

/-- A word of no row raises IllegalCommand (60_exceptions.md R285). -/
theorem acceptCommand_of_error {w : Word} {e : DecodeError} (h : decode w = .error e) {s : State} (he : s.err = false) :
    acceptCommand w s = .next (s.errorTaken .illegalCommand 0#8 (opField w)) := by
  rw [acceptCommand, h]
  exact whenNoError_of_noErr he _

/-- Settles O5, by `row_eq_of_matches`, `matches_none_iff` and `acceptCommand_of_error`. -/
theorem undecodableWordRaisesIllegalCommand : Obligations.UndecodableWordRaisesIllegalCommand := by
  unfold Obligations.UndecodableWordRaisesIllegalCommand
  refine ⟨rfl, fun w s => ⟨fun r hr r' hr' => row_eq_of_matches hr hr', matches_none_iff w, fun hnone he => ?_⟩⟩
  obtain ⟨e, h⟩ := decode_error_iff.2 hnone
  exact ⟨_, acceptCommand_of_error h he, s.errorTaken_spec _ _ _⟩

/-- Settles O1: the words by evaluation, the illegal ones by `acceptCommand_of_error`. -/
theorem workedEncodingsDecode : Obligations.WorkedEncodingsDecode := by
  unfold Obligations.WorkedEncodingsDecode
  have hbuild : decode 0x07000204#32 = .error .reservedBit := by decide
  have hreserved : decode 0x10000000#32 = .error .reservedOpcode := by decide
  refine ⟨by decide, by decide, by decide, by decide, by decide, by decide, by decide, by decide, fun s he => ?_⟩
  exact ⟨⟨_, acceptCommand_of_error hbuild he, s.errorTaken_spec _ _ _⟩,
    ⟨_, acceptCommand_of_error hreserved he, s.errorTaken_spec _ _ _⟩⟩

/-! ### The shape of a response -/

/-- Code 0 where ok, else the stored code and no data; data where `hasData` allows it (R101). -/
structure Response.Shaped (hasData : Prop) (errCode : BitVec 4) (r : Response) : Prop where
  success : r.ok = true → r.code = 0
  failure : r.ok = false → r.code = errCode ∧ r.data = 0
  data : r.data ≠ 0 → hasData

theorem Response.failure_shaped (hasData : Prop) (code : BitVec 4) : (Response.failure code).Shaped hasData code :=
  ⟨fun h => Bool.noConfusion h, fun _ => ⟨rfl, rfl⟩, fun h => absurd rfl h⟩

theorem Answer.rsp_shaped {i : Instr} {s t : State} (h : Answer i s t) :
    ∃ r, t.rsp = some r ∧ r.Shaped (IsRead i) t.errCode := by
  cases h with
  | success u data _ hdata => exact ⟨_, rfl, fun _ => rfl, fun h => Bool.noConfusion h, hdata⟩
  | error | refused => exact ⟨_, rfl, Response.failure_shaped _ _⟩

/-- A word of no row is answered with a failure, a command with one of its three answers. -/
theorem acceptCommand_rsp_shaped {w : Word} {s t : State} (h : acceptCommand w s = .next t) :
    ∃ r, t.rsp = some r ∧ r.Shaped (∃ i, decode w = .ok i ∧ IsRead i) t.errCode := by
  obtain ⟨i, hi, _, ha⟩ | ⟨_, _, _, rfl⟩ | ⟨_, _, _, rfl⟩ := acceptCommand_cases h
  · obtain ⟨r, hr, hshape⟩ := ha.rsp_shaped
    exact ⟨r, hr, { hshape with data := fun h => ⟨i, hi, hshape.data h⟩ }⟩
  · exact ⟨_, rfl, Response.failure_shaped _ _⟩
  · exact ⟨_, rfl, Response.failure_shaped _ _⟩

/-- Settles O52, by `acceptCommand_rsp_shaped`. -/
theorem responseShape : Obligations.ResponseShape := by
  unfold Obligations.ResponseShape
  intro w s t h
  obtain ⟨r, hr, hsuccess, hfailure, hdata⟩ := acceptCommand_rsp_shaped h
  exact ⟨r, hr, hsuccess, hfailure, hdata⟩

end Sys2Proof.Machine
end

section
/-! SUPPORT. The handshake (30_encoding.md R118), one equation per kind of edge, and a host that offers words and takes
the responses. -/

namespace Sys2Proof.Machine

/-! ### One equation per edge -/

section
variable {s : State} {p : PortInput} {ps : List PortInput} (hp : s.pins = p :: ps) (hrst : p.rstN = true)
include hp hrst

theorem step_hold {r : Response} (hr : s.rsp = some r) (hready : p.rspReady = false) :
    step s = .next (s.withEdge p.draw ps) := by simp [step, hp, portEdge, hrst, hr, hready]

theorem step_transfer {r : Response} (hr : s.rsp = some r) (hready : p.rspReady = true) :
    step s = .next ((s.withEdge p.draw ps).transfer r) := by simp [step, hp, portEdge, hrst, hr, hready]

theorem step_idle (hr : s.rsp = none) (hvalid : p.cmdValid = false) :
    step s = .next (s.withEdge p.draw ps) := by simp [step, hp, portEdge, hrst, hr, hvalid]

theorem step_accept (hr : s.rsp = none) (hvalid : p.cmdValid = true) :
    step s = acceptCommand p.cmdData (s.withEdge p.draw ps) := by simp [step, hp, portEdge, hrst, hr, hvalid]

end

theorem State.cmdReady_of_high (s : State) {rstN : Bool} (h : rstN = true) : s.cmdReady rstN = s.rsp.isNone := by
  rw [State.cmdReady, h, Bool.true_and]

theorem State.rspValid_of_high (s : State) {rstN : Bool} (h : rstN = true) : s.rspValid rstN = s.rsp.isSome := by
  rw [State.rspValid, h, Bool.true_and]

/-- Settles O10, by the equations of the edges at which a response waits or the block is idle. -/
theorem responseIsHeldUntilTaken : Obligations.ResponseIsHeldUntilTaken := by
  unfold Obligations.ResponseIsHeldUntilTaken
  intro s p ps hp hrst
  rw [s.cmdReady_of_high hrst, s.rspValid_of_high hrst]
  constructor
  · intro r hr
    refine ⟨by rw [hr]; rfl, by rw [hr]; rfl, step_hold hp hrst hr, fun hready => ?_⟩
    exact ⟨_, step_transfer hp hrst hr hready, rfl, rfl, rfl, .refl s, .refl s, .refl s, .refl s, .refl s,
      .of_slotAt fun _ => rfl, rfl⟩
  · intro hr
    exact ⟨by rw [hr]; rfl, by rw [hr]; rfl, step_idle hp hrst hr⟩

theorem State.withFetchWord_pins (s : State) (w : Word) :
    (s.withFetchWord 32 w.toNat).pins = offerCommand w s.draw :: s.pins := by
  rw [State.withFetchWord, Nat.mod_eq_of_lt w.isLt, BitVec.ofNat_toNat, BitVec.setWidth_eq]

/-- The edge that `withFetchWord` puts first, taken, leaves an idle block as it was. -/
theorem State.withFetchWord_withEdge {s : State} (hr : s.rsp = none) (nbits w : Nat) :
    (s.withFetchWord nbits w).withEdge s.draw s.pins = s := by
  simp only [State.withFetchWord, State.withEdge, ← hr]

/-- Settles O9, by `step_accept`. -/
theorem stepRunsDecodedCommand : Obligations.StepRunsDecodedCommand := by
  unfold Obligations.StepRunsDecodedCommand
  constructor
  · intro s p ps i hp hrst hr hvalid hi
    rw [step_accept hp hrst hr hvalid, acceptCommand_of_ok hi]
  · intro s w i hi hr
    rw [step_accept (s.withFetchWord_pins w) rfl rfl rfl, ← acceptCommand_of_ok hi]
    exact congrArg (acceptCommand w) (State.withFetchWord_withEdge hr 32 w.toNat)

/-! ### The edges still to come are no input of a command -/

/-- `g` applied to the next state of an answer. -/
def mapNext (g : State → State) : Host.Outcome State Fault Refusal → Host.Outcome State Fault Refusal
  | .next s => .next (g s)
  | .fault r => .fault r
  | .refused r => .refused r

/-- The state with other edges to come. -/
def State.withPins (s : State) (ps : List PortInput) : State := s.withEdge s.draw ps

theorem State.runStages_withPins (s : State) (ps : List PortInput) (ks : List Nat) :
    (s.withPins ps).runStages ks = (s.runStages ks).withPins ps := by
  induction ks generalizing s with
  | nil => rfl
  | cons k ks ih => exact ih (s.runStage k)

theorem State.runChain_withPins (s : State) (ps : List PortInput) (d : Direction) :
    (s.withPins ps).runChain d = (s.runChain d).withPins ps := s.runStages_withPins ps _

theorem whenNoError_withPins {body : State → Host.Outcome State Fault Refusal} {s : State} {ps : List PortInput}
    (h : body (s.withPins ps) = mapNext (State.withPins · ps) (body s)) :
    whenNoError body (s.withPins ps) = mapNext (State.withPins · ps) (whenNoError body s) := by
  cases he : s.err with
  | true => rw [whenNoError_of_err he, whenNoError_of_err (by exact he)]; rfl
  | false => rw [whenNoError_of_noErr he, whenNoError_of_noErr (by exact he), h]

theorem exec_withPins (i : Instr) (s : State) (ps : List PortInput) :
    exec i (s.withPins ps) = mapNext (State.withPins · ps) (exec i s) := by
  cases i with
  | nop | reset => rfl
  | keywr | keylen | keyrd | perlo | perhi | step | chlen =>
    simp only [exec, execKeywr, execKeylen, execKeyrd, execPerlo, execPerhi, execStep, execChlen]
    exact whenNoError_withPins rfl
  | buflen | bufwr | bufrd | permrd =>
    simp only [exec, execBuflen, execBufwr, execBufrd, execPermrd]
    exact whenNoError_withPins (by rw [apply_ite (mapNext _)]; rfl)
  | build slot dir =>
    simp only [exec, execBuild]
    refine whenNoError_withPins ?_
    have hcheck : (s.withPins ps).checkBuild slot dir = s.checkBuild slot dir := rfl
    simp only [hcheck]
    cases s.checkBuild slot dir <;> rfl
  | run dir =>
    simp only [exec, execRun]
    refine whenNoError_withPins ?_
    have hcheck : (s.withPins ps).checkChain dir = s.checkChain dir := rfl
    simp only [hcheck, State.runChain_withPins]
    cases s.checkChain dir <;> rfl
  | regrd slot sel =>
    have hread : (s.withPins ps).readRegister slot sel = s.readRegister slot sel := rfl
    simp only [exec, execRegrd, hread]
    cases s.readRegister slot sel with
    | ok => rfl
    | error => exact whenNoError_withPins rfl

theorem acceptCommand_withPins (w : Word) (s : State) (ps : List PortInput) :
    acceptCommand w (s.withPins ps) = mapNext (State.withPins · ps) (acceptCommand w s) := by
  unfold acceptCommand
  split
  · exact exec_withPins _ s ps
  · exact whenNoError_withPins rfl

/-- A word accepted with no edges to come, accepted with more of them. -/
theorem acceptCommand_withEdge {w : Word} {s t : State} {d : MemoryDraw}
    (h : acceptCommand w (s.withEdge d []) = .next t) (ps : List PortInput) :
    acceptCommand w (s.withEdge d ps) = .next (t.withEdge d ps) := by
  obtain ⟨_, _, hdraw, _⟩ := acceptCommand_sameOutside h
  calc acceptCommand w (s.withEdge d ps)
      = mapNext (State.withPins · ps) (acceptCommand w (s.withEdge d [])) :=
        acceptCommand_withPins w (s.withEdge d []) ps
    _ = .next (t.withEdge t.draw ps) := by rw [h]; rfl
    _ = .next (t.withEdge d ps) := by rw [hdraw, State.withEdge_draw]

/-! ### A host that takes its responses -/

theorem serve_cons {w : Word} {ws : List Word} {s t : State} {r : Response} (h : acceptCommand w s = .next t)
    (hr : t.rsp = some r) :
    serve (w :: ws) s = (r :: (serve ws (t.transfer r)).1, (serve ws (t.transfer r)).2) := by
  simp only [serve, h, hr]

/-- The two edges of a word: the first accepts it, the second transfers its response. -/
theorem run_word {w : Word} {ps : List PortInput} {d : MemoryDraw} {s t : State} {r : Response} (n : Nat)
    (hs : s.rsp = none) (hpins : s.pins = offerCommand w d :: takeResponse d :: ps)
    (h : acceptCommand w (s.withEdge d []) = .next t) (hr : t.rsp = some r) :
    core.run (n + 2) s = core.run n ((t.transfer r).withEdge d ps) := by
  have haccept : step s = .next (t.withEdge d (takeResponse d :: ps)) :=
    (step_accept hpins rfl hs rfl).trans (acceptCommand_withEdge h _)
  have htake : step (t.withEdge d (takeResponse d :: ps)) = .next ((t.transfer r).withEdge d ps) :=
    step_transfer (p := takeResponse d) rfl rfl hr rfl
  have hcore : core.step = step := rfl
  simp only [Host.Core.run, hcore, haccept, htake]

/-- Every word has a response, each is transferred in its turn, and the block is idle again. -/
theorem serve_spec (ws : List Word) {s : State} (hs : s.rsp = none) :
    (serve ws s).1.length = ws.length ∧ (serve ws s).2.sent = s.sent ++ (serve ws s).1 ∧
      (serve ws s).2.rsp = none := by
  induction ws generalizing s with
  | nil => exact ⟨rfl, (List.append_nil _).symm, hs⟩
  | cons w ws ih =>
    obtain ⟨t, r, h, hr⟩ := acceptCommand_total w s
    obtain ⟨_, hsent, _, _⟩ := acceptCommand_sameOutside h
    obtain ⟨hlen, hrest, hidle⟩ := ih (s := t.transfer r) rfl
    rw [serve_cons h hr]
    exact ⟨congrArg (· + 1) hlen, by simp [hrest, hsent], hidle⟩

/-- Two edges a word, the machine runs what `serve` serves. -/
theorem run_hostSends {d : MemoryDraw} {ws : List Word} {s : State} (hs : s.rsp = none)
    (hpins : s.pins = hostSends d ws) :
    ∃ d', core.run (2 * ws.length) s = .next ((serve ws (s.withEdge d [])).2.withEdge d' []) := by
  induction ws generalizing s with
  | nil =>
    have hpins : s.pins = [] := hpins
    refine ⟨s.draw, congrArg Host.Outcome.next (?_ : s = s.withEdge s.draw [])⟩
    rw [← hpins]
    rfl
  | cons w ws ih =>
    obtain ⟨t, r, h, hr⟩ := acceptCommand_total w (s.withEdge d [])
    obtain ⟨_, _, hdraw, hedges⟩ := acceptCommand_sameOutside h
    have hedge : (t.transfer r).withEdge d [] = t.transfer r := by
      rw [State.withEdge_draw] at hdraw
      rw [State.withEdge_pins] at hedges
      rw [← hdraw, ← hedges]
      rfl
    obtain ⟨d', hrun⟩ := ih (s := (t.transfer r).withEdge d (hostSends d ws)) rfl rfl
    refine ⟨d', ?_⟩
    rw [List.length_cons, Nat.mul_succ, run_word _ hs hpins h hr, hrun, serve_cons h hr]
    exact congrArg (fun u => Host.Outcome.next ((serve ws u).2.withEdge d' [])) hedge

/-- Settles O14: `run_hostSends`, and what `serve` leaves by `serve_spec`. -/
theorem hostIsServedInOrder : Obligations.HostIsServedInOrder := by
  unfold Obligations.HostIsServedInOrder
  intro s ws d hs hpins
  obtain ⟨d', hrun⟩ := run_hostSends hs hpins
  obtain ⟨hlen, hsent, hidle⟩ := serve_spec ws (s := s.withEdge d []) hs
  exact ⟨_, hrun, hidle, rfl, hlen, hsent, rfl⟩

end Sys2Proof.Machine
end

section
/-! SUPPORT. The staging pseudo-instructions SETPERIOD and LOADKEY (30_encoding.md R115): the commands each expands to,
executed one after another. -/

namespace Sys2Proof.Machine

theorem execAll_cons {i : Instr} {s t : State} (h : exec i s = .next t) (is : List Instr) :
    execAll (i :: is) s = execAll is t := by
  rw [execAll, h]

theorem execAll_append (is js : List Instr) (s : State) :
    execAll (is ++ js) s = (execAll is s).bind (execAll js) := by
  induction is generalizing s with
  | nil => rfl
  | cons i is ih =>
    obtain ⟨t, h, _⟩ := exec_answer i s
    rw [List.cons_append, execAll_cons h, execAll_cons h, ih]

/-! ### SETPERIOD -/

/-- PERLO and PERHI of the two halves of a word leave the word. -/
theorem replaceHigh_replaceLow (p v : Word) :
    replaceHigh (replaceLow p (v.extractLsb' 0 16)) (v.extractLsb' 16 16) = v := by
  rw [replaceHigh, replaceLow, BitVec.extractLsb'_append_eq_right]
  exact (append_fields v 0 16 16).trans BitVec.extractLsb'_eq_self

theorem execAll_expandSetPeriod {s : State} (he : s.err = false) (n : Int) :
    execAll (expandSetPeriod n) s = some ((s.withPeriod (BitVec.ofInt 32 n)).withRsp (.success 0#32)) := by
  rw [expandSetPeriod, execAll_cons (exec_perlo he _), execAll_cons (exec_perhi (by exact he) _), execAll]
  simp only [State.withRsp_period, State.withPeriod_period, replaceHigh_replaceLow]
  rfl

/-- A period accepted by SETPERIOD is legal as staged exactly where it is positive and below 2^31 as written. -/
theorem legalPeriod_ofInt {n : Int} (hlo : -(2 ^ 31) ≤ n) (hhi : n < 2 ^ 32) :
    legalPeriod (BitVec.ofInt 32 n) = true ↔ 1 ≤ n ∧ n < 2 ^ 31 := by
  rw [legalPeriod_iff, BitVec.toNat_ofInt]
  omega

/-- Settles O7: PERLO and PERHI give PERIOD its two halves of `n mod 2^32`. -/
theorem setPeriodStagesWholePeriod : Obligations.SetPeriodStagesWholePeriod := by
  unfold Obligations.SetPeriodStagesWholePeriod
  intro n s he hlo hhi
  have hfit : (Source.setPeriod n).wellFormed = true := decide_eq_true ⟨hlo, hhi⟩
  have hperiod : ((BitVec.ofInt 32 n).toNat : Int) = n % 2 ^ 32 := by
    rw [BitVec.toNat_ofInt]
    omega
  exact ⟨_, _, assemble_of_wellFormed hfit, execAll_expandSetPeriod he n, hperiod, legalPeriod_ofInt hlo hhi, rfl, rfl,
    .refl s, .refl s, .refl s, .refl s, .of_slotAt fun _ => rfl, .refl s⟩

/-! ### LOADKEY -/

/-- The memory after the numbers `bs` are written as bytes from address `i` up. -/
def Memory.writeFrom (m : Memory) : Nat → List Nat → Memory
  | _, [] => m
  | i, b :: bs => (m.write i (BitVec.ofNat 8 b)).writeFrom (i + 1) bs

theorem Memory.read_writeFrom {m : Memory} (hm : m.wf = true) (i : Nat) (bs : List Nat) (a : Nat) :
    (m.writeFrom i bs).read a =
      if i ≤ a ∧ a < i + bs.length then BitVec.ofNat 8 (bs.getD (a - i) 0) else m.read a := by
  induction bs generalizing i m with
  | nil => rw [if_neg (by simp)]; rfl
  | cons b bs ih =>
    rw [Memory.writeFrom, ih (Memory.wf_write hm _ _), Memory.read_write hm, List.length_cons]
    rcases Nat.lt_trichotomy a i with hlt | rfl | hgt
    · rw [if_neg (by omega), if_neg (by omega), if_neg (by omega)]
    · rw [if_neg (by omega), if_pos rfl, if_pos (by omega), Nat.sub_self, List.getD_cons_zero]
    · have hidx : a - i = a - (i + 1) + 1 := by omega
      have hrange : (i ≤ a ∧ a < i + (bs.length + 1)) ↔ (i + 1 ≤ a ∧ a < i + 1 + bs.length) := by omega
      rw [if_neg (Nat.ne_of_gt hgt), hidx, List.getD_cons_succ, if_congr hrange rfl rfl]

/-- The first `n` numbers written from address 0. -/
theorem Memory.read_writeFrom_take {m : Memory} (hm : m.wf = true) (n : Nat) (bs : List Nat) (a : Nat) :
    (m.writeFrom 0 (bs.take n)).read a =
      if a < min bs.length n then BitVec.ofNat 8 (bs.getD a 0) else m.read a := by
  have hrange : (0 ≤ a ∧ a < 0 + (bs.take n).length) ↔ a < min bs.length n := by
    rw [List.length_take]
    omega
  rw [Memory.read_writeFrom hm, if_congr hrange rfl rfl]
  refine ite_congr rfl (fun ha => ?_) fun _ => rfl
  have ha : a < n := by omega
  simp [List.getD, ha]

/-- KEYWR of each byte writes them all: KEYBUF and the response alone change. -/
theorem execAll_expandKeyBytes {s : State} (he : s.err = false) {i : Nat} {bs : List Nat} (hi : i + bs.length ≤ 256) :
    ∃ ρ, execAll (expandKeyBytes i bs) s = some { s with keyBuf := s.keyBuf.writeFrom i bs, rsp := ρ } := by
  induction bs generalizing i s with
  | nil => exact ⟨s.rsp, rfl⟩
  | cons b bs ih =>
    rw [List.length_cons] at hi
    have hidx : (BitVec.ofNat 8 i).toNat = i := Nat.mod_eq_of_lt (by omega)
    obtain ⟨ρ, hρ⟩ := ih (s := (s.withKeyBuf (s.keyBuf.write i (BitVec.ofNat 8 b))).withRsp (.success 0#32))
      (i := i + 1) he (by omega)
    refine ⟨ρ, ?_⟩
    rw [expandKeyBytes, execAll_cons (exec_keywr he _ _), hidx, hρ]
    rfl

theorem execAll_expandLoadKey {s : State} (he : s.err = false) (bytes : List Nat) :
    execAll (expandLoadKey bytes) s = some (((s.withKeyBuf (s.keyBuf.writeFrom 0 (bytes.take 256))).withKeyLen
      (BitVec.ofNat 9 (min bytes.length 256))).withRsp (.success 0#32)) := by
  obtain ⟨ρ, hρ⟩ := execAll_expandKeyBytes he (i := 0) (bs := bytes.take 256) (by simp)
  rw [expandLoadKey, execAll_append, hρ, Option.bind_some, execAll_cons (exec_keylen (by exact he) _)]
  rfl

/-- Settles O8: each KEYWR writes its byte, and KEYLEN follows. -/
theorem loadKeyStagesKey : Obligations.LoadKeyStagesKey := by
  unfold Obligations.LoadKeyStagesKey
  intro bytes s he hwf hbytes
  have hfit : (Source.loadKey bytes).wellFormed = true :=
    List.all_eq_true.2 fun b hb => fits_of_lt (hbytes b hb)
  have hlen : (BitVec.ofNat 9 (min bytes.length 256)).toNat = min bytes.length 256 := Nat.mod_eq_of_lt (by omega)
  exact ⟨_, _, assemble_of_wellFormed hfit, execAll_expandLoadKey he bytes, hlen,
    Memory.read_writeFrom_take hwf 256 bytes, rfl, rfl, .refl s, .refl s, .refl s, .of_slotAt fun _ => rfl, .refl s⟩

end Sys2Proof.Machine
end

section
/-! SUPPORT. The staging commands KEYWR, KEYLEN, KEYRD, PERLO, PERHI, STEP and CHLEN (40_key_schedule.md section 1,
42_chain.md R210): each equation of `exec` names the one register or byte it writes, and the rest is unchanged. -/

namespace Sys2Proof.Machine

/-- Settles O20: KEYBUF after KEYWR is one write. -/
theorem keywrStoresOneKeyByte : Obligations.KeywrStoresOneKeyByte := by
  unfold Obligations.KeywrStoresOneKeyByte
  intro idx byte s he hwf
  exact ⟨_, exec_keywr he idx byte, rfl, Memory.read_write hwf idx.toNat byte, .refl s, .refl s, .refl s, .refl s,
    .of_slotAt fun _ => rfl, .refl s⟩

/-- Settles O21: a byte zero-extended to a word is the same number. -/
theorem keyrdAnswersKeyByte : Obligations.KeyrdAnswersKeyByte := by
  unfold Obligations.KeyrdAnswersKeyByte
  intro v8 s he
  exact ⟨_, exec_keyrd he v8, s.withRsp_sameButRsp _, _, rfl, rfl, rfl, BitVec.toNat_setWidth_of_le (by decide)⟩

/-- Settles O22: each of the three commands is one register update. -/
theorem keylenStepChlenStoreTheirField : Obligations.KeylenStepChlenStoreTheirField := by
  unfold Obligations.KeylenStepChlenStoreTheirField
  refine ⟨fun v9 s he => ?keylen, fun v8 s he => ?step, fun v9 s he => ?chlen⟩
  case keylen =>
    exact ⟨_, exec_keylen he v9, rfl, rfl, rfl, rfl, .refl s, .refl s, .refl s, .refl s, .of_slotAt fun _ => rfl,
      .refl s⟩
  case step =>
    exact ⟨_, exec_step he v8, rfl, rfl, rfl, rfl, .refl s, .refl s, .refl s, .refl s, .of_slotAt fun _ => rfl,
      .refl s⟩
  case chlen =>
    exact ⟨_, exec_chlen he v9, rfl, rfl, rfl, .refl s, .refl s, .refl s, .refl s, .of_slotAt fun _ => rfl, .refl s⟩

/-! ### The two halves of PERIOD (30_encoding.md R106) -/

theorem replaceLow_low (p : Word) (v16 : BitVec 16) : (replaceLow p v16).extractLsb' 0 16 = v16 :=
  BitVec.extractLsb'_append_eq_right

theorem replaceLow_high (p : Word) (v16 : BitVec 16) :
    (replaceLow p v16).extractLsb' 16 16 = p.extractLsb' 16 16 := BitVec.extractLsb'_append_eq_left

theorem replaceHigh_high (p : Word) (v16 : BitVec 16) : (replaceHigh p v16).extractLsb' 16 16 = v16 :=
  BitVec.extractLsb'_append_eq_left

theorem replaceHigh_low (p : Word) (v16 : BitVec 16) :
    (replaceHigh p v16).extractLsb' 0 16 = p.extractLsb' 0 16 := BitVec.extractLsb'_append_eq_right

/-- Settles O23: the word PERLO or PERHI stores is its field beside the other half of PERIOD. -/
theorem periodHalvesAreWrittenSeparately : Obligations.PeriodHalvesAreWrittenSeparately := by
  unfold Obligations.PeriodHalvesAreWrittenSeparately
  refine ⟨fun v16 s he => ?perlo, fun v16 s he => ?perhi⟩
  case perlo =>
    exact ⟨_, exec_perlo he v16, rfl, replaceLow_low _ _, replaceLow_high _ _, rfl, rfl, .refl s, .refl s, .refl s,
      .refl s, .of_slotAt fun _ => rfl, .refl s⟩
  case perhi =>
    exact ⟨_, exec_perhi he v16, rfl, replaceHigh_high _ _, replaceHigh_low _ _, rfl, rfl, .refl s, .refl s, .refl s,
      .refl s, .of_slotAt fun _ => rfl, .refl s⟩

end Sys2Proof.Machine
end

section
/-! SUPPORT. The key schedule's tables: each byte value stands in them once, the Decrypt table is the two-sided inverse
of the Encrypt table, and the schedule is the recurrence of 40_key_schedule.md R146. -/

namespace Sys2Proof.Machine

/-! ### Bijections (40_key_schedule.md R147, R148) -/

theorem IsTable.mem {S : List Byte} (h : IsTable S) (v : Byte) : v ∈ S := by
  obtain ⟨x, hx⟩ := h.exists_index v
  have hlt : x.toNat < S.length := h.1 ▸ x.isLt
  rw [List.getD_eq_getElem _ _ hlt] at hx
  exact List.mem_of_getElem hx

theorem IsTable.count_eq_one {S : List Byte} (h : IsTable S) (v : Byte) : S.count v = 1 :=
  List.count_eq_one_of_mem h.nodup (h.mem v)

/-- The table takes each entry of its inverse back to its index: that index is an entry of the table. -/
theorem IsTable.getD_inverseTable {S : List Byte} (h : IsTable S) (x : Byte) :
    S.getD ((Machine.inverseTable S).getD x.toNat 0).toNat 0 = x := by
  obtain ⟨y, rfl⟩ := h.exists_index x
  rw [h.inverseTable_getD]

/-- Settles O24: the schedule and its inverse are tables. -/
theorem keyScheduleIsBijection : Obligations.KeyScheduleIsBijection := by
  unfold Obligations.KeyScheduleIsBijection
  intro K _ _ v
  have htable := isTable_keySchedule K
  exact ⟨htable.count_eq_one v, htable.inverseTable.count_eq_one v⟩

/-- Settles O25: the schedule is a table, and the inverse of a table undoes it on both sides. -/
theorem decryptTableInvertsEncryptTable : Obligations.DecryptTableInvertsEncryptTable := by
  unfold Obligations.DecryptTableInvertsEncryptTable
  intro K x
  have htable := isTable_keySchedule K
  exact ⟨htable.inverseTable_getD x, htable.getD_inverseTable x⟩

/-! ### The recurrence (40_key_schedule.md R146) -/

theorem getD_identityTable {a : Nat} (ha : a < 256) : identityTable.getD a 0 = BitVec.ofNat 8 a := by
  simp [identityTable, List.getD, ha]

/-- The accumulator and the table of R146 after `i` iterations of its second loop. -/
def scheduleState (K : List Byte) : Nat → Byte × List Byte
  | 0 => (0#8, identityTable)
  | i + 1 =>
    let j := (scheduleState K i).1 + (scheduleState K i).2.getD i 0#8 + K.getD (i % K.length) 0#8
    (j, swapEntries (scheduleState K i).2 i j.toNat)

theorem scheduleState_succ_fst (K : List Byte) (i : Nat) : (scheduleState K (i + 1)).1 =
    (scheduleState K i).1 + (scheduleState K i).2.getD i 0 + K.getD (i % K.length) 0 := rfl

theorem scheduleState_succ_snd (K : List Byte) (i : Nat) : (scheduleState K (i + 1)).2 =
    swapEntries (scheduleState K i).2 i (scheduleState K (i + 1)).1.toNat := rfl

/-- `n` more iterations from the state after `i` lead to the table after `i + n`. -/
theorem keyScheduleLoop_scheduleState (K : List Byte) (n i : Nat) :
    keyScheduleLoop K n i (scheduleState K i).1 (scheduleState K i).2 = (scheduleState K (i + n)).2 := by
  induction n generalizing i with
  | zero => rfl
  | succ n ih => exact (ih (i + 1)).trans (by rw [Nat.add_right_comm, Nat.add_assoc])

theorem keySchedule_eq_scheduleState (K : List Byte) : keySchedule K = (scheduleState K 256).2 := by
  rw [keySchedule]
  exact keyScheduleLoop_scheduleState K 256 0

theorem length_scheduleState (K : List Byte) (i : Nat) : (scheduleState K i).2.length = 256 := by
  induction i with
  | zero => exact isTable_identityTable.1
  | succ i ih => rw [scheduleState_succ_snd, length_swapEntries, ih]

/-- One iteration's swap, read at an index. -/
theorem getD_scheduleState_succ (K : List Byte) {i : Nat} (hi : i < 256) (a : Nat) :
    (scheduleState K (i + 1)).2.getD a 0 =
      if a = (scheduleState K (i + 1)).1.toNat then (scheduleState K i).2.getD i 0
      else if a = i then (scheduleState K i).2.getD (scheduleState K (i + 1)).1.toNat 0
      else (scheduleState K i).2.getD a 0 := by
  have hlen := length_scheduleState K i
  have hj := (scheduleState K (i + 1)).1.isLt
  rw [scheduleState_succ_snd, getD_swapEntries (by omega) (by omega)]

/-- Settles O56: `scheduleState` is the recurrence, and the loop of the schedule runs through it. -/
theorem keyScheduleFollowsRecurrence : Obligations.KeyScheduleFollowsRecurrence := by
  unfold Obligations.KeyScheduleFollowsRecurrence
  intro K _ _
  refine ⟨fun i a => ((scheduleState K i).2.getD a 0).toNat, fun i => (scheduleState K i).1.toNat,
    fun a ha => ?identity, rfl, fun i _ => ?accumulator,
    fun i hi => ⟨?atIndex, ?atAccumulator, fun a _ hai haj => ?elsewhere⟩,
    (isTable_keySchedule K).1, fun a _ => by rw [keySchedule_eq_scheduleState]⟩
  case identity => exact (congrArg BitVec.toNat (getD_identityTable ha)).trans (Nat.mod_eq_of_lt ha)
  case accumulator =>
    simp only [scheduleState_succ_fst, BitVec.toNat_add, Nat.mod_add_mod, Nat.reducePow]
  case atIndex =>
    simp only [getD_scheduleState_succ K hi, if_true]
    split
    next h => rw [← h]
    next => rfl
  case atAccumulator => simp only [getD_scheduleState_succ K hi, if_true]
  case elsewhere => simp only [getD_scheduleState_succ K hi, if_neg hai, if_neg haj]

end Sys2Proof.Machine
end

section
/-! SUPPORT. BUILD (40_key_schedule.md R149 to R153): when its checks pass, the slot it constructs, what that slot
depends on, and that the Enc and the Dec rotor of one staging undo each other. -/

namespace Sys2Proof.Machine

/-- A `dir` of 0 or 1 is a direction (30_encoding.md R108). -/
theorem dirOperand_of_le_one {dir : BitVec 2} (h : dir.toNat ≤ 1) :
    dirOperand dir = some (if dir = 0 then .enc else .dec) := by
  revert dir
  decide

/-! ### A BUILD that passes its checks (40_key_schedule.md R150) -/

section
variable {s : State} {slot : BitVec 8} {dir : BitVec 2} {d : Direction} (hslot : slot.toNat < s.nr)
  (hdir : dirOperand dir = some d) (hkey : s.keyLen ≠ 0) (hperiod : 0 < s.period.toInt)
include hslot hdir hkey hperiod

theorem State.checkBuild_of_legal : s.checkBuild slot dir = .ok d := by
  have hlegal := (legalPeriod_iff_toInt _).2 hperiod
  rw [State.checkBuild, if_neg (by simp [State.slotInRange, hslot]), hdir]
  exact (if_neg hkey).trans (if_neg (by simp [hlegal]))

theorem exec_build_of_legal (he : s.err = false) :
    exec (.build slot dir) s = .next ((s.withSlot slot.toNat (s.builtSlot d)).withRsp (.success 0#32)) :=
  exec_build he (State.checkBuild_of_legal hslot hdir hkey hperiod)

end

/-- Settles O26: BUILD stores the built slot at its place, and each field of that slot is as staged. -/
theorem buildConstructsRotor : Obligations.BuildConstructsRotor := by
  unfold Obligations.BuildConstructsRotor
  intro slot dir s K he hslot hdir hkey hperiod hlen hK
  refine ⟨_, exec_build_of_legal hslot (dirOperand_of_le_one hdir) hkey hperiod he, rfl, ?_⟩
  rw [State.withRsp_slotAt, State.withSlot_slotAt_self hslot]
  refine ⟨rfl, rfl, fun i hi => ?perm, State.builtSlot_period ((legalPeriod_iff_toInt _).2 hperiod) _, rfl, rfl, rfl,
    rfl, .refl s, .refl s, .refl s, .refl s, .refl s, .of_slotAt fun k hk => ?others,
    s.withSlot_config _ _, rfl, rfl, rfl⟩
  case perm =>
    rw [State.builtSlot_perm_read _ _ hi, ← State.eq_stagedKey hlen hK]
    split <;> rfl
  case others => exact State.withSlot_slotAt_of_ne (by simpa using hk) _

/-! ### What a built slot depends on (40_key_schedule.md R149, R151) -/

theorem State.stagedKey_congr {s s' : State} (hlen : min s.keyLen.toNat 256 = min s'.keyLen.toNat 256)
    (hkey : ∀ a < min s.keyLen.toNat 256, s.keyBuf.read a = s'.keyBuf.read a) : s.stagedKey = s'.stagedKey := by
  rw [State.stagedKey, State.stagedKey, State.effectiveKeyLen, State.effectiveKeyLen, ← hlen]
  exact Memory.bytesFrom_congr fun a _ ha => hkey a (by omega)

theorem State.builtSlot_congr {s s' : State} (hkey : s.stagedKey = s'.stagedKey) (hperiod : s.period = s'.period)
    (hstep : s.rotStep = s'.rotStep) (d : Direction) : s.builtSlot d = s'.builtSlot d := by
  rw [State.builtSlot, State.builtSlot, hkey, hperiod, hstep]

/-- Settles O28: both BUILDs pass their checks, and the slots they store agree because their stagings do. -/
theorem buildReadsOnlyStagedKey : Obligations.BuildReadsOnlyStagedKey := by
  unfold Obligations.BuildReadsOnlyStagedKey
  intro slot slot' dir s s' t t' he he' hslot hslot' hlen hperiod hstep hbytes hdir hkey hpos ht ht'
  have hkey' : s'.keyLen ≠ 0 := by bv_omega
  have hd := dirOperand_of_le_one hdir
  obtain rfl := Host.Outcome.next.inj ((exec_build_of_legal hslot hd hkey hpos he).symm.trans ht)
  obtain rfl := Host.Outcome.next.inj ((exec_build_of_legal hslot' hd hkey' (hperiod ▸ hpos) he').symm.trans ht')
  rw [State.withRsp_slotAt, State.withSlot_slotAt_self hslot, State.withRsp_slotAt, State.withSlot_slotAt_self hslot']
  exact ⟨State.builtSlot_congr (State.stagedKey_congr hlen hbytes) hperiod hstep _, rfl, rfl, rfl⟩

/-! ### The two directions of one staging (40_key_schedule.md R147) -/

/-- The Enc and the Dec table of one staging undo each other. -/
theorem State.builtSlot_inverse (s : State) : Memory.Inverse (s.builtSlot .enc).perm (s.builtSlot .dec).perm := by
  intro x
  have htable := isTable_keySchedule s.stagedKey
  have hread (d : Direction) (y : Byte) := s.builtSlot_perm_read d y.isLt
  simp only [hread]
  exact ⟨htable.inverseTable_getD x, htable.getD_inverseTable x⟩

/-- Settles O55: the second BUILD finds the staging and the first slot as the first BUILD left them, so the two slots
are the Enc and the Dec rotor of one staging. -/
theorem builtTablesAreInverseBijections : Obligations.BuiltTablesAreInverseBijections := by
  unfold Obligations.BuiltTablesAreInverseBijections
  intro slot slot' s he hslot hslot' hne hkey hperiod
  have hfirst := exec_build_of_legal (dir := 0#2) hslot rfl hkey hperiod he
  have hsecond := exec_build_of_legal (s := (s.withSlot slot.toNat (s.builtSlot .enc)).withRsp (.success 0#32))
    (dir := 1#2) (by simpa using hslot') rfl hkey hperiod he
  have hne : slot.toNat ≠ slot'.toNat := fun h => hne (BitVec.eq_of_toNat_eq h)
  refine ⟨_, by rw [execAll_cons hfirst, execAll_cons hsecond, execAll], ?_⟩
  rw [State.withRsp_slotAt, State.withRsp_slotAt, State.withSlot_slotAt_of_ne hne, State.withRsp_slotAt,
    State.withSlot_slotAt_self hslot, State.withSlot_slotAt_self (by simpa using hslot')]
  exact ⟨s.builtSlot_bijection .enc, s.builtSlot_bijection .dec, s.builtSlot_inverse⟩

end Sys2Proof.Machine
end

section
/-! SUPPORT. The rotor transform (41_rotor_transform.md): every step keeps the rotation law, the closed form of a built
rotor and of its outputs, when its offset moves, and that a Dec rotor undoes the Enc rotor of its staging. -/

namespace Sys2Proof.Machine

/-! ### The rotation law, kept by every step (R184) -/

theorem Slot.RotationLaw.advanceBy {sl : Slot} (h : sl.RotationLaw) (hp : 1 ≤ sl.period.toNat) (n : Nat) :
    (sl.advanceBy n).RotationLaw := by
  induction n with
  | zero => exact h
  | succ n ih =>
    obtain ⟨k, hphase, hoffset, hcount⟩ := ih
    rw [Slot.advanceBy_succ]
    exact ⟨k + 1, by simpa using Slot.advance_law (by simpa using hp) hphase hoffset hcount⟩

/-- After a reset no slot is VALID (10_state.md R53). -/
theorem State.afterReset_rotationLaw (s : State) (d : MemoryDraw) : (s.afterReset d).RotationLaw := by
  intro sl hsl hv
  obtain ⟨k, hk, rfl⟩ := State.exists_slotAt hsl
  rw [State.afterReset_slotAt (by simpa using hk)] at hv
  exact Bool.noConfusion hv

/-- A built slot has transformed no bytes yet; the PERIOD of a well-formed VALID slot is positive, so advancing it adds
to its count of bytes. -/
theorem SlotChange.rotationLaw {i : Instr} {s : State} {k : Nat} {sl : Slot} (h : SlotChange i s k sl)
    (hwf : (s.slotAt k).Wf) (hlaw : (s.slotAt k).valid = true → (s.slotAt k).RotationLaw) (hv : sl.valid = true) :
    sl.RotationLaw := by
  cases h with
  | kept => exact hlaw hv
  | built _ _ _ _ d => exact s.builtSlot_rotationLaw d
  | advanced _ _ n =>
    have hv : (s.slotAt k).valid = true := by simpa using hv
    have hphase := hwf.phase hv
    exact (hlaw hv).advanceBy (by omega) n

theorem Effect.rotationLaw {i : Instr} {s t : State} (h : Effect i s t) (hs : s.Wf) (hlaw : s.RotationLaw) :
    t.RotationLaw := by
  by_cases hr : i = .reset
  · subst hr h
    exact s.afterReset_rotationLaw s.draw
  · intro sl hsl
    obtain ⟨k, hk, rfl⟩ := State.exists_slotAt hsl
    obtain ⟨hconfig, _⟩ := h.sameOutside
    have hnr : t.nr = s.nr := congrArg Config.nr hconfig
    have hmem : s.slotAt k ∈ s.slots := State.slotAt_mem (hnr ▸ hk)
    exact (h.slotChange hr k).rotationLaw (hs.slots _ hmem) (hlaw _ hmem)

theorem Answer.rotationLaw {i : Instr} {s t : State} (h : Answer i s t) (hs : s.Wf) (hlaw : s.RotationLaw) :
    t.RotationLaw := by
  cases h with
  | success u _ he => exact he.rotationLaw hs hlaw
  | error | refused => exact hlaw

theorem acceptCommand_rotationLaw {w : Word} {s t : State} (h : acceptCommand w s = .next t) (hs : s.Wf)
    (hlaw : s.RotationLaw) : t.RotationLaw := by
  obtain ⟨_, _, _, ha⟩ | ⟨_, _, _, rfl⟩ | ⟨_, _, _, rfl⟩ := acceptCommand_cases h
  · exact ha.rotationLaw hs hlaw
  · exact hlaw
  · exact hlaw

/-- Settles O18, by the cases of `step`: a reset leaves no VALID slot, a transfer or a wait leaves every slot, and an
accepted word keeps, builds or advances each slot. -/
theorem stepKeepsRotationLaw : Obligations.StepKeepsRotationLaw := by
  unfold Obligations.StepKeepsRotationLaw
  intro s t hs hlaw h
  obtain ⟨_, rfl⟩ | ⟨p, ps, _, hedge⟩ := step_cases h
  · exact hlaw
  · obtain ⟨_, rfl⟩ | ⟨_, r, _, _, rfl⟩ | ⟨_, rfl⟩ | ⟨_, _, _, ha⟩ := hedge
    · exact State.afterReset_rotationLaw _ p.draw
    · exact hlaw
    · exact hlaw
    · exact acceptCommand_rotationLaw ha (hs.withEdge p.draw ps) hlaw

/-! ### The closed form of a built rotor (R181, R182, R184) -/

theorem Slot.output_of_enc {sl : Slot} (h : sl.dir = .enc) (x : Byte) :
    sl.output x = sl.perm.read ((x.toNat + sl.offset.toNat) % 256) := by
  simp [Slot.output, h]

theorem Slot.output_of_dec {sl : Slot} (h : sl.dir = .dec) (x : Byte) :
    sl.output x = BitVec.ofInt 8 (((sl.perm.read x.toNat).toNat : Int) - sl.offset.toNat) := by
  apply BitVec.eq_of_toNat_eq
  simp only [Slot.output, h, BitVec.toNat_sub, BitVec.toNat_ofInt]
  omega

section
variable {s : State} (hperiod : 0 < s.period.toInt) (d : Direction) (k : Nat)
include hperiod

theorem State.builtSlot_period_of_pos : (s.builtSlot d).period.toNat = s.period.toNat ∧ 1 ≤ s.period.toNat :=
  have hlegal := (legalPeriod_iff_toInt _).2 hperiod
  ⟨State.builtSlot_period hlegal d, ((legalPeriod_iff _).1 hlegal).1⟩

/-- The law of `Slot.advanceBy_law` for a built slot, in terms of the staged PERIOD and STEP. -/
theorem State.builtSlot_advanceBy_law :
    ((s.builtSlot d).advanceBy k).phase.toNat = k % s.period.toNat ∧
      ((s.builtSlot d).advanceBy k).offset.toNat = (s.rotStep.toNat * (k / s.period.toNat)) % 256 ∧
      ((s.builtSlot d).advanceBy k).count.toNat = k % 2 ^ 32 := by
  obtain ⟨hslot, hpos⟩ := State.builtSlot_period_of_pos hperiod d
  rw [← hslot] at hpos ⊢
  exact Slot.advanceBy_law hpos rfl rfl rfl k

end

/-- Settles O29: the slot after `k` bytes obeys the law, and byte `k` is the output of that slot. -/
theorem rotationClosedForm : Obligations.RotationClosedForm := by
  unfold Obligations.RotationClosedForm
  intro s d xs hperiod
  have hlaw := State.builtSlot_advanceBy_law hperiod d
  rw [transform_slot]
  obtain ⟨hphase, hoffset, hcount⟩ := hlaw xs.length
  refine ⟨hphase, hoffset, hcount, length_transform _ _, fun k x hx => ?_⟩
  obtain ⟨_, hoffset, _⟩ := hlaw k
  rw [transform_getElem?, hx, Option.map_some]
  cases d with
  | enc => rw [Slot.output_of_enc (Slot.advanceBy_dir _ _), Slot.advanceBy_perm, hoffset]
  | dec => rw [Slot.output_of_dec (Slot.advanceBy_dir _ _), Slot.advanceBy_perm, hoffset]

/-! ### When the offset moves (R187) -/

theorem mod_add_one_eq_iff {k p : Nat} (hp : 1 ≤ p) : k % p + 1 = p ↔ (k + 1) % p = 0 := by
  obtain ⟨q, rfl⟩ := Nat.exists_eq_add_of_le' hp
  rw [Nat.add_right_cancel_iff, Nat.succ_mod_succ_eq_zero_iff]

/-- Settles O30: byte number `n` finds PHASE at `n mod PERIOD`, and OFFSET moves where PHASE is PERIOD - 1. -/
theorem offsetMovesOncePerPeriod : Obligations.OffsetMovesOncePerPeriod := by
  unfold Obligations.OffsetMovesOncePerPeriod
  intro s d xs x hperiod
  obtain ⟨hslot, hpos⟩ := State.builtSlot_period_of_pos hperiod d
  obtain ⟨hphase, _, _⟩ := State.builtSlot_advanceBy_law hperiod d xs.length
  rw [transform_slot, transform_slot, List.length_append, List.length_singleton, Slot.advanceBy_succ,
    Slot.advance_offset, Slot.advanceBy_period, Slot.advanceBy_rotStep, hphase, hslot]
  exact if_congr (mod_add_one_eq_iff hpos) rfl rfl

/-! ### The Dec rotor of a staging undoes its Enc rotor (R185) -/

theorem State.builtSlot_counterpart (s : State) : Counterpart (s.builtSlot .enc) (s.builtSlot .dec) :=
  ⟨rfl, rfl, s.builtSlot_inverse, rfl, rfl, rfl, rfl⟩

/-- Settles O31: the two rotors are counterparts, and stay so while both have transformed equally many bytes. -/
theorem decryptRotorUndoesEncryptRotor : Obligations.DecryptRotorUndoesEncryptRotor := by
  unfold Obligations.DecryptRotorUndoesEncryptRotor
  intro s
  refine ⟨fun xs ys x hlen => ?_, s.builtSlot_counterpart.transform⟩
  rw [transform_slot, transform_slot, ← hlen]
  exact (s.builtSlot_counterpart.advanceBy xs.length).output x

end Sys2Proof.Machine
end

section
/-! SUPPORT. The commands of the chain (42_chain.md): BUFLEN, BUFWR and BUFRD against BUFSZ, and what a RUN leaves, alone,
over chunks, and followed by the RUN that undoes it. -/

namespace Sys2Proof.Machine

/-! ### The buffer commands (R211 to R213) -/

/-- Settles O32: BUFLEN is one register update up to BUFSZ, and one error above it. -/
theorem buflenChecksBufferSize : Obligations.BuflenChecksBufferSize := by
  unfold Obligations.BuflenChecksBufferSize
  intro v17 s he
  rw [exec_buflen he]
  refine ⟨fun h => ?stored, fun h => ?refused⟩
  case stored =>
    rw [if_pos h]
    exact ⟨_, rfl, rfl, rfl, rfl, .refl s, .refl s, .refl s, .refl s, .of_slotAt fun _ => rfl, .refl s⟩
  case refused =>
    rw [if_neg (Nat.not_le.2 h)]
    exact ⟨_, rfl, s.errorTaken_spec _ _ _⟩

/-- Settles O33: BUF after BUFWR is one write. -/
theorem bufwrStoresOneByte : Obligations.BufwrStoresOneByte := by
  unfold Obligations.BufwrStoresOneByte
  intro addr byte s he hwf
  rw [exec_bufwr he]
  refine ⟨fun h => ?stored, fun h => ?refused⟩
  case stored =>
    rw [if_pos h]
    exact ⟨_, rfl, rfl, Memory.read_write hwf addr.toNat byte, .refl s, .refl s, .refl s, .refl s,
      .of_slotAt fun _ => rfl, .refl s⟩
  case refused =>
    rw [if_neg (Nat.not_lt.2 h)]
    exact ⟨_, rfl, s.errorTaken_spec _ _ _⟩

/-- Settles O34: a byte zero-extended to a word is the same number. -/
theorem bufrdAnswersOneByte : Obligations.BufrdAnswersOneByte := by
  unfold Obligations.BufrdAnswersOneByte
  intro addr s he
  rw [exec_bufrd he]
  refine ⟨fun h => ?answered, fun h => ?refused⟩
  case answered =>
    rw [if_pos h]
    exact ⟨_, rfl, s.withRsp_sameButRsp _, _, rfl, rfl, rfl, BitVec.toNat_setWidth_of_le (by decide)⟩
  case refused =>
    rw [if_neg (Nat.not_lt.2 h)]
    exact ⟨_, rfl, s.errorTaken_spec _ _ _⟩

/-! ### One RUN over a ready chain (R214 to R217) -/

theorem exec_run_of_ready {s : State} (he : s.err = false) {dir : BitVec 2} {d : Direction}
    (hd : dirOperand dir = some d) (hready : s.ChainReady d) :
    exec (.run dir) s = .next ((s.runChain d).withRsp (.success 0#32)) :=
  exec_run he (State.checkChain_eq_ok.2 ⟨hd, hready⟩)

/-- A chain stays ready after a RUN. -/
theorem State.ChainReady.runChain {s : State} {d : Direction} (h : s.ChainReady d) : (s.runChain d).ChainReady d := by
  obtain ⟨_, _, ⟨hlen, _⟩, _, ⟨hconfig, _⟩, _⟩ := s.runChain_same d
  have hnr : (s.runChain d).nr = s.nr := congrArg Config.nr hconfig
  obtain ⟨hpos, hn, hvalid, hdir⟩ := h
  rw [State.ChainReady, hlen, hnr]
  refine ⟨hpos, hn, fun k hk => ?valid, fun k hk => ?dir⟩
  case valid =>
    rw [← hvalid k hk, State.runChain_slotAt hn]
    split
    · exact Slot.advanceBy_valid _ _
    · rfl
  case dir => rw [← hdir k hk, State.runChain_slotAt hn, if_pos hk, Slot.advanceBy_dir]

/-- `t` is what a RUN over the message `c` leaves of `s`: the answer ok, the message composed through the stages, each
stage advanced by the length of the message, and the chain ready for the next RUN. -/
structure RunOver (s : State) (d : Direction) (c : List Byte) (t : State) : Prop where
  rsp : t.rsp = some ⟨true, 0, 0⟩
  err : t.err = s.err
  ready : t.ChainReady d
  nr : t.nr = s.nr
  chainLen : t.chainLen = s.chainLen
  message : t.message = composeStages (s.stageSlots d) c
  stageSlots : t.stageSlots d = (s.stageSlots d).map (Slot.advanceBy c.length)
  slotAt : ∀ k, t.slotAt k = if k < s.chainLen.toNat then (s.slotAt k).advanceBy c.length else s.slotAt k

theorem State.ChainReady.runOver {s : State} {d : Direction} (h : s.ChainReady d) (hwf : s.buf.wf = true) :
    RunOver s d s.message ((s.runChain d).withRsp (.success 0#32)) := by
  have ⟨_, hn, _⟩ := h
  obtain ⟨⟨herr, _⟩, _, ⟨hlen, _⟩, _, ⟨hconfig, _⟩, _⟩ := s.runChain_same d
  have hlength : s.message.length = s.bufLen.toNat := Memory.length_bytesFrom _ _ _
  refine ⟨rfl, herr, h.runChain, congrArg Config.nr hconfig, hlen, State.runChain_message hn hwf d, ?_, ?_⟩
  all_goals rw [hlength]
  · exact State.runChain_stageSlots hn d
  · exact State.runChain_slotAt hn d

/-- A RUN to decrypt visits the slots in descending order (R216). -/
theorem State.stageSlots_dec (s : State) :
    s.stageSlots .dec = ((List.range s.chainLen.toNat).map s.slotAt).reverse := List.map_reverse

/-- Settles O36: the message and the slots by `State.ChainReady.runOver`, the rest untouched by any stage. -/
theorem runComposesStages : Obligations.RunComposesStages := by
  unfold Obligations.RunComposesStages
  intro dir d s he hd hready hwf
  have hrun := hready.runOver hwf
  obtain ⟨herr, hstaging, hchain, hkeyBuf, hout, _⟩ := s.runChain_same d
  refine ⟨_, exec_run_of_ready he hd hready, hrun.rsp, hrun.message.trans ?message,
    fun a ha => State.runChain_read_above hwf d ha, fun k hk => ?stage, fun k hk => ?other,
    herr, hstaging, hchain, fun a => congrArg (·.read a) hkeyBuf, hout⟩
  case message =>
    cases d with
    | enc => rfl
    | dec => rw [State.stageSlots_dec]
  case stage => rw [hrun.slotAt, if_pos hk, transform_slot]
  case other => rw [hrun.slotAt, if_neg (Nat.not_lt.2 hk)]

/-! ### What no RUN changes (R221) -/

/-- A RUN only advances a slot, and only a slot of the chain. -/
theorem SlotChange.of_run {dir : BitVec 2} {s : State} {k : Nat} {sl : Slot} (h : SlotChange (.run dir) s k sl) :
    (sl.perm = (s.slotAt k).perm ∧ sl.dir = (s.slotAt k).dir ∧ sl.period = (s.slotAt k).period ∧
      sl.rotStep = (s.slotAt k).rotStep ∧ sl.valid = (s.slotAt k).valid) ∧
    (s.chainLen.toNat ≤ k → sl = s.slotAt k) := by
  cases h with
  | kept => exact ⟨⟨rfl, rfl, rfl, rfl, rfl⟩, fun _ => rfl⟩
  | built _ _ hi => exact Instr.noConfusion hi
  | advanced _ hk n => exact ⟨by simp, fun hn => absurd hk (Nat.not_lt.2 hn)⟩

/-- BUF above the message, the staging registers, the chain registers and KEYBUF, however a RUN answers. -/
theorem Answer.run_frame {dir : BitVec 2} {s t : State} (h : Answer (.run dir) s t) (hwf : s.buf.wf = true) :
    (∀ a, s.bufLen.toNat ≤ a → t.buf.read a = s.buf.read a) ∧ SameStaging s t ∧ SameChainRegs s t ∧
      SameKeyBuf s t := by
  cases h with
  | success u _ heffect =>
    obtain ⟨d, _, rfl⟩ := heffect
    obtain ⟨_, hstaging, hchain, hkeyBuf, _, _⟩ := s.runChain_same d
    exact ⟨fun a ha => State.runChain_read_above hwf d ha, hstaging, hchain, fun a => congrArg (·.read a) hkeyBuf⟩
  | error | refused => exact ⟨fun _ _ => rfl, .refl s, .refl s, .refl s⟩

/-- Settles O37, by the cases of RUN's answer: slots by `SlotChange.of_run`, the rest by `Answer.run_frame`. -/
theorem runFrame : Obligations.RunFrame := by
  unfold Obligations.RunFrame
  intro dir s t hwf h
  have hslot := fun k => ((exec_cases h).slotChange (fun h => Instr.noConfusion h) k).of_run
  obtain ⟨habove, hstaging, hchain, hkeyBuf⟩ := (exec_cases h).run_frame hwf
  exact ⟨fun k => (hslot k).1, fun k => (hslot k).2, habove, hstaging, hchain, hkeyBuf, (exec_cases h).sameOutside⟩

/-! ### An empty RUN (R219) -/

/-- A stage over no byte writes its slot and BUF back as they were. -/
theorem State.runStage_of_bufLen_zero {s : State} (h : s.bufLen = 0) (k : Nat) : s.runStage k = s := by
  rw [State.runStage, h]
  exact congrArg (State.withBuf · s.buf) (s.withSlot_slotAt k)

theorem State.runChain_of_bufLen_zero {s : State} (h : s.bufLen = 0) (d : Direction) : s.runChain d = s :=
  State.runStages_induction (P := (· = s))
    (fun _ k ht => by rw [ht, State.runStage_of_bufLen_zero h]) rfl (stageOrder d s.chainLen.toNat)

/-- Settles O38: an empty RUN that passes its checks drives its response alone. -/
theorem emptyRunChangesNothing : Obligations.EmptyRunChangesNothing := by
  unfold Obligations.EmptyRunChangesNothing
  intro dir s he hlen
  refine ⟨fun d hc => ⟨_, exec_run he hc, rfl, ?_⟩, fun e hc => ⟨_, exec_run_error he hc, s.errorTaken_spec _ _ _⟩⟩
  rw [State.runChain_of_bufLen_zero hlen]
  exact s.withRsp_sameButRsp _

/-! ### RUNs over chunks (R220) -/

/-- RUN over a message loaded into `BUF[0..]`, whatever BUF holds past it. A length up to the greatest BUFSZ is one that
BUFLEN holds (R39). -/
theorem exec_run_withMessage {s : State} (he : s.err = false) {dir : BitVec 2} {d : Direction}
    (hd : dirOperand dir = some d) (hready : s.ChainReady d) {c : List Byte} (hc : c.length ≤ 65536) {m : Memory}
    (hm : m.wf = true) (hb : m.bytesFrom 0 c.length = c) :
    ∃ t, exec (.run dir) (s.withMessage m c.length) = .next t ∧ RunOver s d c t := by
  have hlen : (s.withMessage m c.length).bufLen.toNat = c.length := Nat.mod_eq_of_lt (by omega)
  have hmessage : (s.withMessage m c.length).message = c := by
    rw [State.message, hlen]
    exact hb
  have hrun := State.ChainReady.runOver (s := s.withMessage m c.length) hready hm
  rw [hmessage] at hrun
  exact ⟨_, exec_run_of_ready (s := s.withMessage m c.length) he hd hready, { hrun with }⟩

/-- The list of slots is known by its length and its slots. -/
theorem State.slots_ext {s t : State} (hnr : s.nr = t.nr) (h : ∀ k, s.slotAt k = t.slotAt k) : s.slots = t.slots :=
  List.ext_getElem hnr fun k hs ht => by simpa [State.slotAt, hs, ht] using h k

/-- Settles O39: the second RUN meets the slots as the first leaves them, advanced by the first chunk. -/
theorem chunkedRunsEqualOneRun : Obligations.ChunkedRunsEqualOneRun := by
  unfold Obligations.ChunkedRunsEqualOneRun
  intro dir d s c₁ c₂ m m₁ m₂ he hd hready hsize hfit hm hm₁ hm₂ hb hb₁ hb₂
  have hc : (c₁ ++ c₂).length ≤ 65536 := Nat.le_trans hfit hsize
  obtain ⟨hc₁, hc₂⟩ : c₁.length ≤ 65536 ∧ c₂.length ≤ 65536 := by
    rw [List.length_append] at hc
    omega
  obtain ⟨t, ht, hrun⟩ := exec_run_withMessage he hd hready hc hm hb
  obtain ⟨t₁, ht₁, hrun₁⟩ := exec_run_withMessage he hd hready hc₁ hm₁ hb₁
  obtain ⟨t₂, ht₂, hrun₂⟩ := exec_run_withMessage (hrun₁.err.trans he) hd hrun₁.ready hc₂ hm₂ hb₂
  refine ⟨t, t₁, t₂, ht, hrun.rsp, ht₁, hrun₁.rsp, ht₂, hrun₂.rsp, ?bytes, State.slots_ext ?nr fun k => ?slot⟩
  case bytes => rw [hrun.message, hrun₁.message, hrun₂.message, hrun₁.stageSlots, composeStages_append]
  case nr => rw [hrun.nr, hrun₂.nr, hrun₁.nr]
  case slot =>
    rw [hrun.slotAt, hrun₂.slotAt, hrun₁.slotAt, hrun₁.chainLen, List.length_append, Slot.advanceBy_add]
    split <;> rfl

/-! ### Encrypt, then Decrypt (R218) -/

theorem composeStages_append_stages (sls sls' : List Slot) (xs : List Byte) :
    composeStages (sls ++ sls') xs = composeStages sls' (composeStages sls xs) := by
  induction sls generalizing xs with
  | nil => rfl
  | cons sl sls ih => exact ih (transform sl xs).1

/-- The counterparts in reverse order undo the stages: the innermost pair cancels first. -/
theorem composeStages_reverse_counterparts {e d : Nat → Slot} {ks : List Nat}
    (h : ∀ k ∈ ks, Counterpart (e k) (d k)) (xs : List Byte) :
    composeStages (ks.reverse.map d) (composeStages (ks.map e) xs) = xs := by
  induction ks generalizing xs with
  | nil => rfl
  | cons k ks ih =>
    obtain ⟨hk, hks⟩ := List.forall_mem_cons.1 h
    calc composeStages ((k :: ks).reverse.map d) (composeStages ((k :: ks).map e) xs)
        = composeStages [d k] (composeStages (ks.reverse.map d) (composeStages (ks.map e) (transform (e k) xs).1)) := by
          rw [List.reverse_cons, List.map_append, composeStages_append_stages]; rfl
      _ = (transform (d k) (transform (e k) xs).1).1 := by rw [ih hks]; rfl
      _ = xs := hk.transform xs

/-- Settles O40: the stages cancel pair by pair, and each pair is advanced by the same number of bytes. -/
theorem decryptRunUndoesEncryptRun : Obligations.DecryptRunUndoesEncryptRun := by
  unfold Obligations.DecryptRunUndoesEncryptRun
  refine ⟨State.builtSlot_counterpart, fun s u hes heu hs hu hbs hbu hchain hlen hpairs => ?_⟩
  have hrun := hs.runOver hbs
  refine ⟨_, exec_run_of_ready hes rfl hs, hrun.rsp, fun hmessage => ?_⟩
  have hback := hu.runOver hbu
  refine ⟨_, exec_run_of_ready heu rfl hu, hback.rsp, ?message, fun k hk => ?pair⟩
  case message =>
    rw [hback.message, hmessage, hrun.message, State.stageSlots, State.stageSlots, hchain]
    exact composeStages_reverse_counterparts (fun k hk => hpairs k (List.mem_range.1 hk)) s.message
  case pair =>
    have hlength : u.message.length = s.message.length := by simp [State.message, hlen]
    rw [hrun.slotAt, hback.slotAt, hchain, if_pos hk, if_pos hk, hlength]
    exact (hpairs k hk).advanceBy _

end Sys2Proof.Machine
end

section
/-! SUPPORT. Host control (43_host_control.md): NOP, what PERMRD reads, and REGRD by the range its selector lies in: a
global register, a slot's register, or an error. -/

namespace Sys2Proof.Machine

/-! ### NOP and PERMRD (R250, R251) -/

/-- Settles O42: NOP drives its response alone. -/
theorem nopChangesNothing : Obligations.NopChangesNothing := by
  unfold Obligations.NopChangesNothing
  exact fun s => ⟨_, exec_nop s, rfl, s.withRsp_sameButRsp _⟩

/-- Settles O43: a byte zero-extended to a word is the same number. -/
theorem permrdAnswersTableEntry : Obligations.PermrdAnswersTableEntry := by
  unfold Obligations.PermrdAnswersTableEntry
  intro slot i8 s he
  rw [exec_permrd he]
  refine ⟨fun h => ?answered, fun h => ?refused⟩
  case answered =>
    rw [if_pos h]
    exact ⟨_, rfl, s.withRsp_sameButRsp _, _, rfl, rfl, rfl, BitVec.toNat_setWidth_of_le (by decide)⟩
  case refused =>
    rw [if_neg (Nat.not_lt.2 h)]
    exact ⟨_, rfl, s.errorTaken_spec _ _ _⟩

/-! ### The selector map (R253) -/

theorem State.globalReg_eq_some {sel : BitVec 8} (h : sel.toNat ≤ 0x07) (s : State) :
    ∃ v, s.globalReg sel = some v := by
  unfold State.globalReg
  split
  case h_9 => grind
  all_goals exact ⟨_, rfl⟩

theorem State.globalReg_eq_none {sel : BitVec 8} (h : 0x07 < sel.toNat) (s : State) : s.globalReg sel = none := by
  unfold State.globalReg
  split
  case h_9 => rfl
  all_goals omega

theorem Slot.reg_eq_some {sel : BitVec 8} (hlo : 0x10 ≤ sel.toNat) (hhi : sel.toNat ≤ 0x15) (sl : Slot) :
    ∃ v, sl.reg sel = some v := by
  unfold Slot.reg
  split
  case h_7 => grind
  all_goals exact ⟨_, rfl⟩

theorem Slot.reg_eq_none {sel : BitVec 8} (h : sel.toNat < 0x10 ∨ 0x15 < sel.toNat) (sl : Slot) :
    sl.reg sel = none := by
  unfold Slot.reg
  split
  case h_7 => rfl
  all_goals omega

/-- Selector 0x10 packs two bits: VALID in bit 0 and DIR in bit 1. -/
theorem Slot.reg_flags {sl : Slot} {v : Word} (h : sl.reg 0x10 = some v) :
    v.getLsbD 0 = sl.valid ∧ v.getLsbD 1 = decide (sl.dir = .dec) ∧ v.toNat < 4 := by
  obtain rfl : (sl.dir.toBit ++ BitVec.ofBool sl.valid).setWidth 32 = v := Option.some.inj h
  cases sl.dir <;> cases sl.valid <;> decide

/-- A register narrower than a word is the same number in the word that reads it. -/
theorem toNat_of_zeroExtended {n : Nat} {x : BitVec n} {v : Word} (hn : n ≤ 32) (h : some (x.setWidth 32) = some v) :
    v.toNat = x.toNat := by
  rw [← Option.some.inj h, BitVec.toNat_setWidth_of_le hn]

/-- NR and BUFSZ are at most 65536 (00_scope.md R7), so a word reads them unchanged. -/
theorem toNat_of_parameter {n : Nat} {v : Word} (hn : n ≤ 65536) (h : some (BitVec.ofNat 32 n) = some v) :
    v.toNat = n := by
  rw [← Option.some.inj h, BitVec.toNat_ofNat]
  omega

/-! ### What REGRD reads (R252) -/

section
variable {s : State} {slot sel : BitVec 8}

theorem State.readRegister_global {v : Word} (hv : s.globalReg sel = some v) :
    s.readRegister 0#8 sel = .ok v := by simp [State.readRegister, hv]

theorem State.readRegister_slot {v : Word} (hsel : 0x10 ≤ sel.toNat) (hv : (s.slotAt slot.toNat).reg sel = some v)
    (hslot : slot.toNat < s.nr) : s.readRegister slot sel = .ok v := by
  simp [State.readRegister, State.globalReg_eq_none (show 0x07 < sel.toNat by omega), hv, State.slotInRange, hslot]

theorem State.readRegister_outside (hlo : 0x10 ≤ sel.toNat) (hhi : sel.toNat ≤ 0x15) (hslot : s.nr ≤ slot.toNat) :
    s.readRegister slot sel = .error (.outOfRange, slot) := by
  obtain ⟨v, hv⟩ := Slot.reg_eq_some hlo hhi (s.slotAt slot.toNat)
  simp [State.readRegister, State.globalReg_eq_none (show 0x07 < sel.toNat by omega), hv, State.slotInRange, hslot]

theorem State.readRegister_illegal
    (h : (sel.toNat ≤ 0x07 ∧ slot ≠ 0) ∨ (0x07 < sel.toNat ∧ sel.toNat < 0x10) ∨ 0x15 < sel.toNat) :
    s.readRegister slot sel = .error (.illegalCommand, 0#8) := by
  rcases h with ⟨hsel, hslot⟩ | hundefined
  · obtain ⟨v, hv⟩ := State.globalReg_eq_some hsel s
    simpa [State.readRegister, hv] using hslot
  · have hglobal := State.globalReg_eq_none (show 0x07 < sel.toNat by omega) s
    have hslot := Slot.reg_eq_none (show sel.toNat < 0x10 ∨ 0x15 < sel.toNat by omega) (s.slotAt slot.toNat)
    simp [State.readRegister, hglobal, hslot]

/-- A REGRD that reads nothing passes the ERROR-state gate only where there is no error (60_exceptions.md R292). -/
theorem exec_regrd_error {e : ErrorKind × BitVec 8} (h : s.readRegister slot sel = .error e) :
    exec (.regrd slot sel) s = whenNoError (raiseError e.1 e.2 0x0E#8) s := by
  rw [exec, execRegrd, h]
  rfl

theorem exec_regrd_raises {kind : ErrorKind} {named : BitVec 8} (he : s.err = false)
    (h : s.readRegister slot sel = .error (kind, named)) :
    ∃ t, exec (.regrd slot sel) s = .next t ∧ ErrorTaken kind named 0x0E#8 s t :=
  ⟨_, (exec_regrd_error h).trans (whenNoError_of_noErr he _), s.errorTaken_spec _ _ _⟩

end

/-- Settles O46: what `readRegister` answers decides the error, and the gate whether it is raised or refused. -/
theorem regrdErrors : Obligations.RegrdErrors := by
  unfold Obligations.RegrdErrors
  intro slot sel s illegal outside
  refine ⟨fun he h => exec_regrd_raises he (State.readRegister_illegal h),
    fun he ⟨hlo, hhi, hslot⟩ => exec_regrd_raises he (State.readRegister_outside hlo hhi hslot), fun he h => ?refused⟩
  obtain ⟨e, hread⟩ : ∃ e, s.readRegister slot sel = .error e := by
    rcases h with h | ⟨hlo, hhi, hslot⟩
    · exact ⟨_, State.readRegister_illegal h⟩
    · exact ⟨_, State.readRegister_outside hlo hhi hslot⟩
  exact ⟨_, (exec_regrd_error hread).trans (whenNoError_of_err he _), rfl, s.withRsp_sameButRsp _⟩

/-- Settles O44: the selector map gives each register, and NR and BUFSZ, being legal, fit a word. -/
theorem regrdReadsGlobalRegisters : Obligations.RegrdReadsGlobalRegisters := by
  unfold Obligations.RegrdReadsGlobalRegisters
  intro sel s ⟨_, hnr, _, hsize⟩ hsel
  obtain ⟨v, hv⟩ := State.globalReg_eq_some hsel s
  refine ⟨_, _, exec_regrd (State.readRegister_global hv), s.withRsp_sameButRsp _, rfl, rfl, rfl, ?_⟩
  refine ⟨?status, ?keyLen, ?period, ?rotStep, ?chainLen, ?bufLen, ?nr, ?bufSize⟩ <;> rintro rfl
  case status | period => exact (Option.some.inj hv).symm
  case keyLen | rotStep | chainLen | bufLen => exact toNat_of_zeroExtended (by decide) hv
  case nr => exact toNat_of_parameter (Nat.le_trans hnr (by decide)) hv
  case bufSize => exact toNat_of_parameter hsize hv

/-- Settles O45: the selector map gives each register, and the flags stand at their bits by `Slot.reg_flags`. -/
theorem regrdReadsSlotRegisters : Obligations.RegrdReadsSlotRegisters := by
  unfold Obligations.RegrdReadsSlotRegisters
  intro slot sel s hslot hlo hhi
  obtain ⟨v, hv⟩ := Slot.reg_eq_some hlo hhi (s.slotAt slot.toNat)
  refine ⟨_, _, exec_regrd (State.readRegister_slot hlo hv hslot), s.withRsp_sameButRsp _, rfl, rfl, rfl, ?_⟩
  refine ⟨?flags, ?period, ?rotStep, ?offset, ?phase, ?count⟩ <;> rintro rfl
  case flags => exact Slot.reg_flags hv
  case period | rotStep | offset | phase => exact toNat_of_zeroExtended (by decide) hv
  case count => exact (Option.some.inj hv).symm

end Sys2Proof.Machine
end

section
/-! SUPPORT. An idle edge (60_exceptions.md R302), and the errors of BUILD and RUN: each check of a command, failing
where those before it pass, decides the error (R281 to R284, R288). -/

namespace Sys2Proof.Machine

/-- Settles O11: an edge at which nothing happens takes its own draw and leaves the edges after it. -/
theorem idleBlockKeepsItsState : Obligations.IdleBlockKeepsItsState := by
  unfold Obligations.IdleBlockKeepsItsState
  intro s p ps hp hrst hr hvalid
  exact ⟨_, step_idle hp hrst hr hvalid, hr, rfl, rfl, rfl, .refl s, .refl s, .refl s, .refl s, .refl s,
    .of_slotAt fun _ => rfl⟩

/-- A `dir` of 2 or 3 is no direction (30_encoding.md R108). -/
theorem dirOperand_eq_none {dir : BitVec 2} (h : 1 < dir.toNat) : dirOperand dir = none := by
  revert dir
  decide

/-! ### BUILD (40_key_schedule.md R150) -/

section
variable {s : State} {slot : BitVec 8} {dir : BitVec 2}

theorem exec_build_raises {kind : ErrorKind} (he : s.err = false) (h : s.checkBuild slot dir = .error kind) :
    ∃ t, exec (.build slot dir) s = .next t ∧ ErrorTaken kind slot 0x07#8 s t :=
  ⟨_, exec_build_error he h, s.errorTaken_spec _ _ _⟩

theorem State.checkBuild_outOfRange (h : s.nr ≤ slot.toNat) : s.checkBuild slot dir = .error .outOfRange :=
  if_pos (by simp [State.slotInRange, h])

variable (hslot : slot.toNat < s.nr)
include hslot

theorem State.checkBuild_invalidDirection (hdir : dirOperand dir = none) :
    s.checkBuild slot dir = .error .invalidDirection := by
  rw [State.checkBuild, if_neg (by simp [State.slotInRange, hslot]), hdir]

variable {d : Direction} (hdir : dirOperand dir = some d)
include hdir

theorem State.checkBuild_invalidKeyPhrase (hkey : s.keyLen = 0) :
    s.checkBuild slot dir = .error .invalidKeyPhrase := by
  rw [State.checkBuild, if_neg (by simp [State.slotInRange, hslot]), hdir]
  exact if_pos hkey

theorem State.checkBuild_invalidRotationPeriod (hkey : s.keyLen ≠ 0) (hperiod : s.period.toInt ≤ 0) :
    s.checkBuild slot dir = .error .invalidRotationPeriod := by
  have hillegal : ¬ legalPeriod s.period = true := fun h => Int.not_lt.2 hperiod ((legalPeriod_iff_toInt _).1 h)
  rw [State.checkBuild, if_neg (by simp [State.slotInRange, hslot]), hdir]
  exact (if_neg hkey).trans (if_pos (by simpa using hillegal))

end

/-- Settles O27, by the checks of BUILD in their order. -/
theorem buildErrorsInOrder : Obligations.BuildErrorsInOrder := by
  unfold Obligations.BuildErrorsInOrder
  refine ⟨⟨rfl, rfl, rfl, rfl⟩, fun slot dir s he => ⟨fun hslot => ?slot, fun hslot hdir => ?dir,
    fun hslot hdir hkey => ?key, fun hslot hdir hkey hperiod => ?period⟩⟩ <;> refine exec_build_raises he ?_
  case slot => exact State.checkBuild_outOfRange hslot
  case dir => exact State.checkBuild_invalidDirection hslot (dirOperand_eq_none hdir)
  case key => exact State.checkBuild_invalidKeyPhrase hslot (dirOperand_of_le_one hdir) hkey
  case period => exact State.checkBuild_invalidRotationPeriod hslot (dirOperand_of_le_one hdir) hkey hperiod

/-! ### RUN (42_chain.md R215) -/

/-- An entry of the slot file is the slot that reads at its index. -/
theorem State.of_getElem?_slots {s : State} {k : Nat} {sl : Slot} (h : s.slots[k]? = some sl) :
    k < s.nr ∧ sl = s.slotAt k := by
  have hk : k < s.nr := (List.getElem?_eq_some_iff.1 h).1
  exact ⟨hk, Option.some.inj (h.symm.trans (State.getElem?_slots hk))⟩

section
variable {s : State} {dir : BitVec 2}

theorem exec_run_raises {kind : ErrorKind} {named : BitVec 8} (he : s.err = false)
    (h : s.checkChain dir = .error (kind, named)) :
    ∃ t, exec (.run dir) s = .next t ∧ ErrorTaken kind named 0x0C#8 s t :=
  ⟨_, exec_run_error he h, s.errorTaken_spec _ _ _⟩

theorem State.checkChain_of_dir_none (hdir : dirOperand dir = none) :
    s.checkChain dir = .error (.invalidDirection, 0#8) := by
  rw [State.checkChain, hdir]

variable {d : Direction} (hdir : dirOperand dir = some d)
include hdir

theorem State.checkChain_of_length (hlen : s.chainLen.toNat = 0 ∨ s.nr < s.chainLen.toNat) :
    s.checkChain dir = .error (.chainLengthMismatch, 0#8) := by
  rw [State.checkChain, hdir]
  exact if_pos hlen

variable (hpos : 1 ≤ s.chainLen.toNat) (hnr : s.chainLen.toNat ≤ s.nr) {k : Nat}
include hpos hnr

theorem State.checkChain_of_mismatch (hk : k < s.nr) (hbad : (s.slotAt k).valid ≠ decide (k < s.chainLen.toNat))
    (hlow : ∀ j < k, (s.slotAt j).valid = decide (j < s.chainLen.toNat)) :
    s.checkChain dir = .error (.chainLengthMismatch, BitVec.ofNat 8 k) := by
  have hfirst : firstMismatch s.chainLen.toNat 0 s.slots = some k := by
    simpa using firstMismatch_eq_some (k := 0) (State.getElem?_slots hk) (by simpa using hbad) fun j sl hj hsl => by
      obtain ⟨_, rfl⟩ := State.of_getElem?_slots hsl
      simpa using hlow j hj
  rw [State.checkChain, hdir]
  simp only [if_neg (show ¬ (s.chainLen.toNat = 0 ∨ s.nr < s.chainLen.toNat) by omega), hfirst]

theorem State.checkChain_of_wrongDir (hvalid : ∀ k < s.nr, (s.slotAt k).valid = decide (k < s.chainLen.toNat))
    (hk : k < s.chainLen.toNat) (hbad : (s.slotAt k).dir ≠ d) (hlow : ∀ j < k, (s.slotAt j).dir = d) :
    s.checkChain dir = .error (.invalidDirection, BitVec.ofNat 8 k) := by
  have hnone : firstMismatch s.chainLen.toNat 0 s.slots = none := firstMismatch_eq_none.2 fun i sl hi => by
    obtain ⟨hlt, rfl⟩ := State.of_getElem?_slots hi
    simpa using hvalid i hlt
  have hfirst : firstWrongDir d s.chainLen.toNat 0 s.slots = some k := by
    simpa using firstWrongDir_eq_some (k := 0) (State.getElem?_slots (Nat.lt_of_lt_of_le hk hnr)) (by simpa using hk)
      hbad fun j sl hj hsl => by
        obtain ⟨_, rfl⟩ := State.of_getElem?_slots hsl
        exact hlow j hj
  rw [State.checkChain, hdir]
  simp only [if_neg (show ¬ (s.chainLen.toNat = 0 ∨ s.nr < s.chainLen.toNat) by omega), hnone, hfirst]

end

/-- Settles O35, by the checks of RUN in their order. -/
theorem runErrorsInOrder : Obligations.RunErrorsInOrder := by
  unfold Obligations.RunErrorsInOrder
  refine ⟨⟨rfl, rfl⟩, fun dir s he _ => ⟨fun hdir => ?dir, fun hdir hlen => ?length,
    fun hdir hpos hnr => ⟨fun k hk hbad hlow => ?valid, fun hvalid k hk hbad hlow => ?direction⟩⟩⟩ <;>
    refine exec_run_raises he ?_
  case dir => exact State.checkChain_of_dir_none (dirOperand_eq_none hdir)
  case length => exact State.checkChain_of_length (dirOperand_of_le_one hdir) hlen
  case valid => exact State.checkChain_of_mismatch (dirOperand_of_le_one hdir) hpos hnr hk hbad hlow
  case direction => exact State.checkChain_of_wrongDir (dirOperand_of_le_one hdir) hpos hnr hvalid hk hbad hlow

end Sys2Proof.Machine
end

section
/-! SUPPORT. The ERROR state (60_exceptions.md R289 to R294): the words it executes, the refusal of every other one, and
what an answer with `ok = 0` has written. -/

namespace Sys2Proof.Machine

theorem decode_nop : decode 0x00000000#32 = .ok .nop := rfl

theorem decode_reset : decode 0x0F000000#32 = .ok .reset := rfl

/-- Any other word is refused, be it a command or a word of no row (R292). -/
theorem acceptCommand_refused {w : Word} {s : State} (he : s.err = true) (hnop : w ≠ 0x00000000#32)
    (hreset : w ≠ 0x0F000000#32)
    (hread : ∀ slot sel, decode w = .ok (.regrd slot sel) → ∀ v, s.readRegister slot sel ≠ .ok v) :
    acceptCommand w s = .next (s.withRsp (.failure s.errCode)) := by
  cases hw : decode w with
  | error e =>
    rw [acceptCommand, hw]
    exact whenNoError_of_err he _
  | ok i =>
    have henc := encodeOfDecode w i hw
    rw [acceptCommand_of_ok hw]
    refine exec_in_error he ?_ ?_ fun slot sel hi => hread slot sel (hi ▸ hw)
    · rintro rfl
      exact hnop henc.symm
    · rintro rfl
      exact hreset henc.symm

/-- Settles O49: three kinds of word pass the gate, and `acceptCommand_refused` answers the others. -/
theorem errorStateRefusesOtherWords : Obligations.ErrorStateRefusesOtherWords := by
  unfold Obligations.ErrorStateRefusesOtherWords
  intro w s he
  refine ⟨?nop, ?reset, fun slot sel v hw hv => ?regrd, fun hnop hreset hread => ?refused⟩
  case nop =>
    rintro rfl
    exact ⟨_, (acceptCommand_of_ok decode_nop s).trans (exec_nop s), rfl, s.withRsp_sameButRsp _⟩
  case reset =>
    rintro rfl
    exact ⟨_, (acceptCommand_of_ok decode_reset s).trans (exec_reset s), rfl, rfl⟩
  case regrd =>
    rw [acceptCommand_of_ok hw]
    exact ⟨_, exec_regrd hv, rfl, s.withRsp_sameButRsp _⟩
  case refused => exact ⟨_, acceptCommand_refused he hnop hreset hread, rfl, s.withRsp_sameButRsp _⟩

/-! ### What leaves the ERROR state (R293) -/

/-- In the ERROR state every command but RESET keeps the error registers: NOP and REGRD leave the state as it is, and
no error is raised over the first. -/
theorem Answer.sameErrorRegs {i : Instr} {s t : State} (h : Answer i s t) (he : s.err = true) (hr : i ≠ .reset) :
    SameErrorRegs s t := by
  cases h with
  | success u data heffect _ hopen =>
    obtain rfl | rfl | ⟨slot, sel, rfl, _⟩ := hopen he
    · obtain rfl := heffect
      exact .refl u
    · exact absurd rfl hr
    · obtain ⟨_, rfl⟩ := heffect
      exact .refl u
  | error _ _ _ hno => exact absurd he (by simp [hno])
  | refused => exact .refl s

theorem acceptCommand_sameErrorRegs {w : Word} {s t : State} (h : acceptCommand w s = .next t) (he : s.err = true)
    (hw : w ≠ 0x0F000000#32) : SameErrorRegs s t := by
  obtain ⟨i, hi, _, ha⟩ | ⟨_, _, hno, _⟩ | ⟨_, _, _, rfl⟩ := acceptCommand_cases h
  · refine ha.sameErrorRegs he ?_
    rintro rfl
    exact hw (encodeOfDecode w _ hi).symm
  · exact absurd he (by simp [hno])
  · exact .refl s

/-- Settles O50, by the cases of `step`: of the edges that are no reset only an accepted word could write the error
registers. -/
theorem onlyResetLeavesErrorState : Obligations.OnlyResetLeavesErrorState := by
  unfold Obligations.OnlyResetLeavesErrorState
  intro s t he h
  obtain ⟨_, rfl⟩ | ⟨p, ps, hp, hedge⟩ := step_cases h
  · exact .inl (.refl t)
  · obtain ⟨hrst, _⟩ | ⟨_, _, _, _, rfl⟩ | ⟨_, rfl⟩ | ⟨_, hr, hvalid, ha⟩ := hedge
    · exact .inr ⟨p, ps, hp, .inl hrst⟩
    · exact .inl (.refl s)
    · exact .inl (.refl s)
    · by_cases hw : p.cmdData = 0x0F000000#32
      · exact .inr ⟨p, ps, hp, .inr ⟨hr, hvalid, hw⟩⟩
      · exact .inl (acceptCommand_sameErrorRegs (s := s.withEdge p.draw ps) ha he hw)

/-! ### What a failed word has written (R290, R291) -/

theorem opField_of_decode {w : Word} {i : Instr} (h : decode w = .ok i) : opField w = i.opcode := by
  rw [← encodeOfDecode w i h, opField_encode]

/-- A word answered with `ok = 0` raised an error, or was refused because of an earlier one. -/
theorem acceptCommand_failed {w : Word} {s t : State} {r : Response} (h : acceptCommand w s = .next t)
    (hr : t.rsp = some r) (hok : r.ok = false) :
    (s.err = false ∧ ∃ kind slot, t = s.errorTaken kind slot (opField w)) ∨
    (s.err = true ∧ t = s.withRsp (.failure s.errCode)) := by
  obtain ⟨i, hi, _, ha⟩ | ⟨_, _, he, rfl⟩ | ⟨_, _, he, rfl⟩ := acceptCommand_cases h
  · cases ha with
    | success u data =>
      obtain rfl := Option.some.inj hr
      exact Bool.noConfusion hok
    | error kind slot _ he => exact .inl ⟨he, kind, slot, by rw [opField_of_decode hi]⟩
    | refused he => exact .inr ⟨he, rfl⟩
  · exact .inl ⟨he, _, _, rfl⟩
  · exact .inr ⟨he, rfl⟩

/-- Settles O51, by `acceptCommand_failed`. -/
theorem failedCommandWritesNothing : Obligations.FailedCommandWritesNothing := by
  unfold Obligations.FailedCommandWritesNothing
  intro w s t r h hr hok
  obtain ⟨he, kind, slot, rfl⟩ | ⟨he, rfl⟩ := acceptCommand_failed h hr hok <;> obtain rfl := Option.some.inj hr
  · obtain ⟨herr, hcode, _, hop, _, hsame⟩ := s.errorTaken_spec kind slot (opField w)
    exact ⟨hsame, herr, hcode, fun herr => absurd herr (by simp [he]), fun _ => hop⟩
  · obtain ⟨hregs, hsame⟩ := s.withRsp_sameButRsp (.failure s.errCode)
    exact ⟨hsame, he, rfl, fun _ => hregs, fun hno => absurd he (by simp [hno])⟩

end Sys2Proof.Machine
end

section
/-! SUPPORT. The two resets (70_reset_and_hazards.md R320 to R323), which leave one and the same state up to the answer,
and that no edge is without a next state (R343, R344). -/

namespace Sys2Proof.Machine

/-! ### What a reset leaves (R321) -/

/-- `t` is the block `s` after `ResetState()` with the draw `d`: every register at its value in 10_state.md R53, every
memory cell the byte drawn for it. -/
def BlockReset (d : MemoryDraw) (s t : State) : Prop :=
  t.err = false ∧ t.errCode = 0 ∧ t.errSlot = 0 ∧ t.errOp = 0 ∧ t.keyLen = 0 ∧ t.period = 0 ∧ t.rotStep = 0 ∧
  t.chainLen = 0 ∧ t.bufLen = 0 ∧
  (∀ k < s.nr, (t.slotAt k).valid = false ∧ (t.slotAt k).dir = .enc ∧ (t.slotAt k).period = 0 ∧
    (t.slotAt k).rotStep = 0 ∧ (t.slotAt k).offset = 0 ∧ (t.slotAt k).phase = 0 ∧ (t.slotAt k).count = 0 ∧
    ∀ i < 256, (t.slotAt k).perm.read i = (d.perms.getD k []).getD i 0) ∧
  (∀ i < 256, t.keyBuf.read i = d.keyBuf.getD i 0) ∧
  ∀ a < s.bufSize, t.buf.read a = d.buf.getD a 0

theorem State.afterReset_spec (s : State) (d : MemoryDraw) : BlockReset d s (s.afterReset d) := by
  refine ⟨rfl, rfl, rfl, rfl, rfl, rfl, rfl, rfl, rfl, fun k hk => ?slots, fun i hi => Memory.read_ofBytes hi d.keyBuf,
    fun a ha => Memory.read_ofBytes ha d.buf⟩
  case slots =>
    rw [State.afterReset_slotAt hk]
    exact ⟨rfl, rfl, rfl, rfl, rfl, rfl, rfl, fun i hi => Memory.read_ofBytes hi (d.perms.getD k [])⟩

/-- The answer to RESET is no part of what the reset sets. -/
theorem BlockReset.withRsp {d : MemoryDraw} {s t : State} (h : BlockReset d s t) (r : Response) :
    BlockReset d s (t.withRsp r) := h

/-- Settles O48: RESET has no ERROR-state gate, and its answer is driven after the reset. -/
theorem resetCommandResetsBlock : Obligations.ResetCommandResetsBlock := by
  unfold Obligations.ResetCommandResetsBlock
  intro s
  exact ⟨_, exec_reset s, rfl, ⟨s.afterReset_config s.draw, rfl, rfl, rfl⟩, (s.afterReset_spec s.draw).withRsp _⟩

/-! ### Edges: the reset pin (R322), and totality (R343) -/

theorem step_reset {s : State} {p : PortInput} {ps : List PortInput} (hp : s.pins = p :: ps) (hrst : p.rstN = false) :
    step s = .next ((s.withEdge p.draw ps).afterReset p.draw) := by simp [step, hp, portEdge, hrst]

theorem State.cmdReady_of_low (s : State) {rstN : Bool} (h : rstN = false) : s.cmdReady rstN = false := by
  rw [State.cmdReady, h, Bool.false_and]

theorem State.rspValid_of_low (s : State) {rstN : Bool} (h : rstN = false) : s.rspValid rstN = false := by
  rw [State.rspValid, h, Bool.false_and]

/-- Settles O12: an edge with `rst_n` low is a reset with that edge's draw, and the reset drops a waiting response. -/
theorem resetPinResetsWholeBlock : Obligations.ResetPinResetsWholeBlock := by
  unfold Obligations.ResetPinResetsWholeBlock
  intro s p ps hp hrst
  exact ⟨s.cmdReady_of_low hrst, s.rspValid_of_low hrst, _, step_reset hp hrst, rfl, rfl, rfl,
    State.afterReset_config _ p.draw, (s.withEdge p.draw ps).afterReset_spec p.draw⟩

theorem step_of_no_pins {s : State} (hp : s.pins = []) : step s = .next s := by simp [step, hp]

/-- Of the edges only one that accepts a word runs anything, and every accepted word is answered. -/
theorem step_total (s : State) : ∃ t, step s = .next t := by
  cases hp : s.pins with
  | nil => exact ⟨s, step_of_no_pins hp⟩
  | cons p ps =>
    cases hrst : p.rstN with
    | false => exact ⟨_, step_reset hp hrst⟩
    | true =>
      cases hr : s.rsp with
      | some r =>
        cases hready : p.rspReady with
        | false => exact ⟨_, step_hold hp hrst hr hready⟩
        | true => exact ⟨_, step_transfer hp hrst hr hready⟩
      | none =>
        cases hvalid : p.cmdValid with
        | false => exact ⟨_, step_idle hp hrst hr hvalid⟩
        | true =>
          obtain ⟨t, _, ht, _⟩ := acceptCommand_total p.cmdData (s.withEdge p.draw ps)
          exact ⟨t, (step_accept hp hrst hr hvalid).trans ht⟩

/-- A step takes one edge from the host's list, whatever that edge does. -/
theorem step_pins {s t : State} (h : step s = .next t) : t.pins = s.pins.tail := by
  obtain ⟨hp, rfl⟩ | ⟨p, ps, hp, hedge⟩ := step_cases h <;> rw [hp]
  · rfl
  · obtain ⟨_, rfl⟩ | ⟨_, _, _, _, rfl⟩ | ⟨_, rfl⟩ | ⟨_, _, _, ha⟩ := hedge
    · rfl
    · rfl
    · rfl
    · obtain ⟨_, _, _, hpins⟩ := acceptCommand_sameOutside ha
      exact hpins

/-- Settles O13, by `step_total`, `step_pins` and `acceptCommand_total`. -/
theorem everyEdgeHasNextState : Obligations.EveryEdgeHasNextState := by
  unfold Obligations.EveryEdgeHasNextState
  refine ⟨fun s => ?_, acceptCommand_total⟩
  obtain ⟨t, ht⟩ := step_total s
  refine ⟨t, ht, fun hp => ?none, fun p ps hp => ?one⟩
  case none => exact Host.Outcome.next.inj (ht.symm.trans (step_of_no_pins hp))
  case one => rw [step_pins ht, hp, List.tail_cons]

/-- Settles O15: each of the eight slots is a blank one. -/
theorem stateAfterReset : Obligations.StateAfterReset := by
  unfold Obligations.StateAfterReset
  refine ⟨rfl, rfl, fun sl hsl => ?_, rfl, rfl, rfl, rfl, rfl⟩
  rw [List.eq_of_mem_replicate hsl]
  rfl

end Sys2Proof.Machine
end

section
/-! SUPPORT. The state after reset (10_state.md section 6) is a start for the two invariants that every step keeps. -/

namespace Sys2Proof.Machine

/-- The empty memories are canonical, each of the eight slots is a blank one, and no error and no response is held. -/
theorem State.reset_wf : State.reset.Wf where
  config := by decide
  keyBuf := by decide
  buf := by decide
  bufLen := Nat.zero_le _
  slots sl h := by
    rw [List.eq_of_mem_replicate h]
    exact Slot.blank_wf (by decide)
  noError _ := ⟨rfl, rfl, rfl⟩
  error h := Bool.noConfusion h
  rsp _ h := nomatch h

/-- The state after reset is one that a reset leaves, where no slot is VALID. -/
theorem State.reset_rotationLaw : State.reset.RotationLaw :=
  State.reset_eq_afterReset ▸ State.afterReset_rotationLaw State.reset MemoryDraw.zero

/-- Settles O16, by `State.reset_wf` and `State.reset_rotationLaw`. -/
theorem resetIsWellFormed : Obligations.ResetIsWellFormed := by
  unfold Obligations.ResetIsWellFormed
  exact ⟨State.reset_wf, State.reset_rotationLaw⟩

end Sys2Proof.Machine
end
